-- ==== Sys2Proof/Word.lean ====
section
/-!
DEFINITION. The machine's word types (00_scope R5 `XLEN`, R7; 20_memory R26; 30_encoding R46) and the one narrowing
operation, `trunc32`.
-/
namespace Sys2Proof

/-- A 32-bit word: a register, a memory word, an instruction, an address (00_scope R7). -/
abbrev Word := BitVec 32

/-- The addressable unit of memory (20_memory R26). -/
abbrev Byte := BitVec 8

/-- A 5-bit register-index field `Ra`, `Rb` or `Rc` (30_encoding R46); every value is a register. -/
abbrev RegIdx := BitVec 5

/-- The 16-bit literal field (30_encoding R46). -/
abbrev Lit := BitVec 16

/-- "the unique 32-bit pattern congruent to the integer `n` modulo `2^32`" (00_scope R7). -/
abbrev trunc32 (n : Int) : Word := BitVec.ofInt 32 n

end Sys2Proof
end

