-- ==== Sys2Proof/Config.lean ====
section
/-!
DEFINITION. The parameters of 00_scope R5: what is fixed for a machine, or taken as an argument of reset. The opcode
numbers (D1) stand in Decode.lean, and the record of the parameters the spec leaves open (D1, D19), which the operations
take as an argument, in Machine/Params.lean.
-/
namespace Sys2Proof

/-- The three region sizes `P`, `V`, `K` in bytes (00_scope R5, 10_state R19): arguments of reset, constant afterwards. -/
structure Layout where
  progSize : Nat
  vidSize : Nat
  kernSize : Nat
  deriving DecidableEq, Repr

/-- `MEM_SIZE = P + V + K` (00_scope R5, 20_memory R25). -/
def Layout.memSize (l : Layout) : Nat := l.progSize + l.vidSize + l.kernSize

/-- `KB = P + V`, the first byte address of the kernel region (00_scope R5, 20_memory R27). -/
def Layout.kernelBase (l : Layout) : Nat := l.progSize + l.vidSize

/-- `REG_ZERO`: the register that reads as zero (00_scope R5). -/
abbrev Config.regZero : RegIdx := 31#5

/-- `REG_XP`: the "return" register written at interrupt delivery (00_scope R5). -/
abbrev Config.regXp : RegIdx := 30#5

/-- `REG_SP`: the "stack" register written at interrupt delivery (00_scope R5). -/
abbrev Config.regSp : RegIdx := 29#5

/-- `HANDLER_OFF`: offset of the handler code in the kernel region (00_scope R5). -/
abbrev Config.handlerOffset : Nat := 400

/-- `IRQ_TYPE_IDX`, the source's "offset 13" (00_scope R5); its unit is decided in Machine/Params.lean. -/
abbrev Config.irqTypeIndex : Nat := 13

/-- `IRQ_KEY_IDX`, the source's "offset 14" (00_scope R5). -/
abbrev Config.irqKeyIndex : Nat := 14

/-- `MEM_INIT`: what a byte of memory that nothing has written holds. DESIGN CHOICE (log entry 3), unsafe: the source
gives no contents; 0x00 is the default of 70_reset R147 and decision D6. -/
def Config.memInit : Byte := 0x00

/-- The layout of `State.reset`. DESIGN CHOICE (log entry 1), unsafe: the source gives no sizes; these are those of
95_test_vectors. `Machine.resetMachine` takes any layout, and a claim is about every layout a state may hold. -/
def Config.defaultLayout : Layout := { progSize := 0x1000, vidSize := 0x1000, kernSize := 0x800 }

end Sys2Proof
end

