-- ==== Sys2Proof/Syntax.lean ====
section
/-!
DEFINITION. The instruction set as syntax: one constructor for each row of spec/opcode_table.json (30_encoding R52).
Operands stand in the order of the assembler templates (30_encoding R57); the fields' types bound them, so no term is
ill formed (30_encoding R51).
-/
namespace Sys2Proof

inductive Instr where
  /-- `HALT` (40_step_halt R65) -/
  | halt
  /-- `LD(Ra,lit,Rc)` (41_load_store R69) -/
  | ld (ra : RegIdx) (lit : Lit) (rc : RegIdx)
  /-- `ST(Rc,lit,Ra)`: `Rc` is the data source (41_load_store R70) -/
  | st (rc : RegIdx) (lit : Lit) (ra : RegIdx)
  /-- `JMP(Ra,Rc)` (42_control_transfer R75) -/
  | jmp (ra : RegIdx) (rc : RegIdx)
  /-- `BEQ(Ra,lit,Rc)` (42_control_transfer R76) -/
  | beq (ra : RegIdx) (lit : Lit) (rc : RegIdx)
  /-- `BNE(Ra,lit,Rc)` (42_control_transfer R77) -/
  | bne (ra : RegIdx) (lit : Lit) (rc : RegIdx)
  /-- `LDR(lit,Rc)` (41_load_store R71) -/
  | ldr (lit : Lit) (rc : RegIdx)
  /-- `ADD(Ra,Rb,Rc)` (43_alu_register R80) -/
  | add (ra : RegIdx) (rb : RegIdx) (rc : RegIdx)
  /-- `SUB(Ra,Rb,Rc)` (43_alu_register R81) -/
  | sub (ra : RegIdx) (rb : RegIdx) (rc : RegIdx)
  /-- `MUL(Ra,Rb,Rc)` (43_alu_register R82) -/
  | mul (ra : RegIdx) (rb : RegIdx) (rc : RegIdx)
  /-- `DIV(Ra,Rb,Rc)` (43_alu_register R83) -/
  | div (ra : RegIdx) (rb : RegIdx) (rc : RegIdx)
  /-- `CMPEQ(Ra,Rb,Rc)` (43_alu_register R84) -/
  | cmpeq (ra : RegIdx) (rb : RegIdx) (rc : RegIdx)
  /-- `CMPLT(Ra,Rb,Rc)` (43_alu_register R85) -/
  | cmplt (ra : RegIdx) (rb : RegIdx) (rc : RegIdx)
  /-- `CMPLE(Ra,Rb,Rc)` (43_alu_register R86) -/
  | cmple (ra : RegIdx) (rb : RegIdx) (rc : RegIdx)
  /-- `AND(Ra,Rb,Rc)` (43_alu_register R87) -/
  | and (ra : RegIdx) (rb : RegIdx) (rc : RegIdx)
  /-- `OR(Ra,Rb,Rc)` (43_alu_register R88) -/
  | or (ra : RegIdx) (rb : RegIdx) (rc : RegIdx)
  /-- `XOR(Ra,Rb,Rc)` (43_alu_register R89) -/
  | xor (ra : RegIdx) (rb : RegIdx) (rc : RegIdx)
  /-- `SHL(Ra,Rb,Rc)` (43_alu_register R90) -/
  | shl (ra : RegIdx) (rb : RegIdx) (rc : RegIdx)
  /-- `SHR(Ra,Rb,Rc)` (43_alu_register R91) -/
  | shr (ra : RegIdx) (rb : RegIdx) (rc : RegIdx)
  /-- `SRA(Ra,Rb,Rc)` (43_alu_register R92) -/
  | sra (ra : RegIdx) (rb : RegIdx) (rc : RegIdx)
  /-- `ADDC(Ra,lit,Rc)` (44_alu_literal R97) -/
  | addc (ra : RegIdx) (lit : Lit) (rc : RegIdx)
  /-- `SUBC(Ra,lit,Rc)` (44_alu_literal R98) -/
  | subc (ra : RegIdx) (lit : Lit) (rc : RegIdx)
  /-- `MULC(Ra,lit,Rc)` (44_alu_literal R99) -/
  | mulc (ra : RegIdx) (lit : Lit) (rc : RegIdx)
  /-- `DIVC(Ra,lit,Rc)` (44_alu_literal R100) -/
  | divc (ra : RegIdx) (lit : Lit) (rc : RegIdx)
  /-- `CMPEQC(Ra,lit,Rc)` (44_alu_literal R101) -/
  | cmpeqc (ra : RegIdx) (lit : Lit) (rc : RegIdx)
  /-- `CMPLTC(Ra,lit,Rc)` (44_alu_literal R102) -/
  | cmpltc (ra : RegIdx) (lit : Lit) (rc : RegIdx)
  /-- `CMPLEC(Ra,lit,Rc)` (44_alu_literal R103) -/
  | cmplec (ra : RegIdx) (lit : Lit) (rc : RegIdx)
  /-- `ANDC(Ra,lit,Rc)` (44_alu_literal R104) -/
  | andc (ra : RegIdx) (lit : Lit) (rc : RegIdx)
  /-- `ORC(Ra,lit,Rc)` (44_alu_literal R105) -/
  | orc (ra : RegIdx) (lit : Lit) (rc : RegIdx)
  /-- `XORC(Ra,lit,Rc)` (44_alu_literal R106) -/
  | xorc (ra : RegIdx) (lit : Lit) (rc : RegIdx)
  /-- `SHLC(Ra,lit,Rc)` (44_alu_literal R107) -/
  | shlc (ra : RegIdx) (lit : Lit) (rc : RegIdx)
  /-- `SHRC(Ra,lit,Rc)` (44_alu_literal R108) -/
  | shrc (ra : RegIdx) (lit : Lit) (rc : RegIdx)
  /-- `SRAC(Ra,lit,Rc)` (44_alu_literal R109) -/
  | srac (ra : RegIdx) (lit : Lit) (rc : RegIdx)
  deriving DecidableEq, Repr

end Sys2Proof
end

