-- ==== Sys2Proof/WellFormed.lean ====
section
/-!
DEFINITION. Well-formedness. An `Instr` needs no check: its register fields are 5-bit and its literal 16-bit by type
(30_encoding R51, "the three register indices are 5-bit numbers and so always in `0..31`"). The checks the spec does
state are on the layout that reset is given (00_scope R6).
-/
namespace Sys2Proof

/-- The conditions of 00_scope R6 on `(P, V, K)`; "a model refuses it at reset" otherwise (`Machine.resetMachine`). -/
def Layout.wf (l : Layout) : Bool :=
  l.progSize % 4 == 0 && l.vidSize % 4 == 0 && l.kernSize % 4 == 0
    && decide (Config.handlerOffset ≤ l.kernSize) && decide (l.memSize ≤ 2 ^ 31)

end Sys2Proof
end

