-- ==== Sys2Proof/Decode.lean ====
section
/-!
DEFINITION. Fields, the opcode map, the decoder (total, rejecting by name), the encoder, and `decodeTableWord`
(30_encoding R45 to R57). Decoder and encoder take the opcode map as an argument, as 30_encoding R53 asks ("a model
should take the map as a configuration table constrained only to be injective with `OPC(HALT) = 0`"), and so do the step
and the disassembler (Machine/Params.lean); the names without `With` are these at `opcodeNumber`, the default map of
decision D1 (PRESUMED, log entry 4).
-/
namespace Sys2Proof

/-- The four bytes of a word in memory order, least significant first (20_memory R29). -/
def wordBytes (w : Word) : List Byte :=
  [w.extractLsb' 0 8, w.extractLsb' 8 8, w.extractLsb' 16 8, w.extractLsb' 24 8]

/-- The word whose bytes at increasing addresses are `b0 b1 b2 b3` (20_memory R29). -/
def wordOfBytes (b0 b1 b2 b3 : Byte) : Word := b3 ++ b2 ++ b1 ++ b0

/-- The five fields every word is cut into, whatever its opcode (30_encoding R46). -/
structure Fields where
  opcode : BitVec 6
  rc : RegIdx
  ra : RegIdx
  rb : RegIdx
  lit : Lit
  deriving DecidableEq, Repr

/-- Field extraction (30_encoding R46): opcode 31..26, Rc 25..21, Ra 20..16, Rb 15..11, literal 15..0. -/
def fieldsOf (w : Word) : Fields :=
  { opcode := w.extractLsb' 26 6
    rc := w.extractLsb' 21 5
    ra := w.extractLsb' 16 5
    rb := w.extractLsb' 11 5
    lit := w.extractLsb' 0 16 }

/-- The 33 mnemonics, in the order of the source's dispatch table (30_encoding R52). -/
inductive Mnemonic where
  | halt | ld | st | jmp | beq | bne | ldr
  | add | sub | mul | div | cmpeq | cmplt | cmple | and | or | xor | shl | shr | sra
  | addc | subc | mulc | divc | cmpeqc | cmpltc | cmplec | andc | orc | xorc | shlc | shrc | srac
  deriving DecidableEq, Repr

/-- Every mnemonic once (30_encoding R52: "This list is complete"). -/
def Mnemonic.all : List Mnemonic :=
  [.halt, .ld, .st, .jmp, .beq, .bne, .ldr]
    ++ [.add, .sub, .mul, .div, .cmpeq, .cmplt, .cmple, .and, .or, .xor, .shl, .shr, .sra]
    ++ [.addc, .subc, .mulc, .divc, .cmpeqc, .cmpltc, .cmplec, .andc, .orc, .xorc, .shlc, .shrc, .srac]

/-- An assignment of 6-bit numbers to mnemonics, the parameter `OPC` of 00_scope R5. -/
abbrev OpcodeMap := Mnemonic → BitVec 6

/-- The default opcode numbers (30_encoding R53, decision D1). PRESUMED (log entry 4), unsafe: the source gives only
`HALT`; the others are the MIT Beta's. -/
def opcodeNumber : OpcodeMap
  | .halt => 0x00#6
  | .ld => 0x18#6
  | .st => 0x19#6
  | .jmp => 0x1b#6
  | .beq => 0x1c#6
  | .bne => 0x1d#6
  | .ldr => 0x1f#6
  | .add => 0x20#6
  | .sub => 0x21#6
  | .mul => 0x22#6
  | .div => 0x23#6
  | .cmpeq => 0x24#6
  | .cmplt => 0x25#6
  | .cmple => 0x26#6
  | .and => 0x28#6
  | .or => 0x29#6
  | .xor => 0x2a#6
  | .shl => 0x2c#6
  | .shr => 0x2d#6
  | .sra => 0x2e#6
  | .addc => 0x30#6
  | .subc => 0x31#6
  | .mulc => 0x32#6
  | .divc => 0x33#6
  | .cmpeqc => 0x34#6
  | .cmpltc => 0x35#6
  | .cmplec => 0x36#6
  | .andc => 0x38#6
  | .orc => 0x39#6
  | .xorc => 0x3a#6
  | .shlc => 0x3c#6
  | .shrc => 0x3d#6
  | .srac => 0x3e#6

/-- The mnemonic a map gives an opcode, if any (30_encoding R54: none is the invalid opcode). -/
def lookupOpcode (opc : OpcodeMap) (c : BitVec 6) : Option Mnemonic :=
  Mnemonic.all.find? (fun m => opc m == c)

/-- The instruction a mnemonic makes of a word's fields (30_encoding R47, R49, R50: unused fields are ignored). -/
def instrOf (m : Mnemonic) (f : Fields) : Instr :=
  match m with
  | .halt => .halt
  | .ld => .ld f.ra f.lit f.rc
  | .st => .st f.rc f.lit f.ra
  | .jmp => .jmp f.ra f.rc
  | .beq => .beq f.ra f.lit f.rc
  | .bne => .bne f.ra f.lit f.rc
  | .ldr => .ldr f.lit f.rc
  | .add => .add f.ra f.rb f.rc
  | .sub => .sub f.ra f.rb f.rc
  | .mul => .mul f.ra f.rb f.rc
  | .div => .div f.ra f.rb f.rc
  | .cmpeq => .cmpeq f.ra f.rb f.rc
  | .cmplt => .cmplt f.ra f.rb f.rc
  | .cmple => .cmple f.ra f.rb f.rc
  | .and => .and f.ra f.rb f.rc
  | .or => .or f.ra f.rb f.rc
  | .xor => .xor f.ra f.rb f.rc
  | .shl => .shl f.ra f.rb f.rc
  | .shr => .shr f.ra f.rb f.rc
  | .sra => .sra f.ra f.rb f.rc
  | .addc => .addc f.ra f.lit f.rc
  | .subc => .subc f.ra f.lit f.rc
  | .mulc => .mulc f.ra f.lit f.rc
  | .divc => .divc f.ra f.lit f.rc
  | .cmpeqc => .cmpeqc f.ra f.lit f.rc
  | .cmpltc => .cmpltc f.ra f.lit f.rc
  | .cmplec => .cmplec f.ra f.lit f.rc
  | .andc => .andc f.ra f.lit f.rc
  | .orc => .orc f.ra f.lit f.rc
  | .xorc => .xorc f.ra f.lit f.rc
  | .shlc => .shlc f.ra f.lit f.rc
  | .shrc => .shrc f.ra f.lit f.rc
  | .srac => .srac f.ra f.lit f.rc

/-- Decoding one word under an opcode map; `none` is the invalid opcode (30_encoding R51: one of 34 outcomes). -/
def decodeWordWith (opc : OpcodeMap) (w : Word) : Option Instr :=
  (lookupOpcode opc (fieldsOf w).opcode).map (fun m => instrOf m (fieldsOf w))

/-- Decoding one word under the machine's opcode map (30_encoding R53). -/
def decodeWord (w : Word) : Option Instr := decodeWordWith opcodeNumber w

/-- Why a byte string is not an instruction. -/
inductive DecodeError where
  /-- fewer than four bytes are left (30_encoding R45: every instruction is one 32-bit word) -/
  | truncated (available : Nat)
  /-- the opcode selects no instruction (30_encoding R54) -/
  | invalidOpcode (word : Word)
  deriving DecidableEq, Repr

/-- The decoder on bytes, least significant byte first (30_encoding R45, 20_memory R29): the instruction and the bytes
after it, or a rejection by name. -/
def decode : List Byte → Except DecodeError (Instr × List Byte)
  | b0 :: b1 :: b2 :: b3 :: rest =>
    match decodeWord (wordOfBytes b0 b1 b2 b3) with
    | some i => .ok (i, rest)
    | none => .error (.invalidOpcode (wordOfBytes b0 b1 b2 b3))
  | bs => .error (.truncated bs.length)

/-! ### The encoder -/

/-- The mnemonic of an instruction (30_encoding R52). -/
def Instr.mnemonic : Instr → Mnemonic
  | .halt => .halt
  | .ld _ _ _ => .ld
  | .st _ _ _ => .st
  | .jmp _ _ => .jmp
  | .beq _ _ _ => .beq
  | .bne _ _ _ => .bne
  | .ldr _ _ => .ldr
  | .add _ _ _ => .add
  | .sub _ _ _ => .sub
  | .mul _ _ _ => .mul
  | .div _ _ _ => .div
  | .cmpeq _ _ _ => .cmpeq
  | .cmplt _ _ _ => .cmplt
  | .cmple _ _ _ => .cmple
  | .and _ _ _ => .and
  | .or _ _ _ => .or
  | .xor _ _ _ => .xor
  | .shl _ _ _ => .shl
  | .shr _ _ _ => .shr
  | .sra _ _ _ => .sra
  | .addc _ _ _ => .addc
  | .subc _ _ _ => .subc
  | .mulc _ _ _ => .mulc
  | .divc _ _ _ => .divc
  | .cmpeqc _ _ _ => .cmpeqc
  | .cmpltc _ _ _ => .cmpltc
  | .cmplec _ _ _ => .cmplec
  | .andc _ _ _ => .andc
  | .orc _ _ _ => .orc
  | .xorc _ _ _ => .xorc
  | .shlc _ _ _ => .shlc
  | .shrc _ _ _ => .shrc
  | .srac _ _ _ => .srac

/-- The register-form layout with zeros in the unused bits 10..0 (30_encoding R46, R57). -/
def packRegister (op : BitVec 6) (rc ra rb : RegIdx) : Word := op ++ rc ++ ra ++ rb ++ 0#11

/-- The literal-form layout (30_encoding R46). -/
def packLiteral (op : BitVec 6) (rc ra : RegIdx) (lit : Lit) : Word := op ++ rc ++ ra ++ lit

/-- Assembling under an opcode map: "zeros elsewhere" (30_encoding R57). -/
def encodeWith (opc : OpcodeMap) (i : Instr) : Word :=
  match i with
  | .halt => packLiteral (opc .halt) 0 0 0
  | .ld ra lit rc => packLiteral (opc .ld) rc ra lit
  | .st rc lit ra => packLiteral (opc .st) rc ra lit
  | .jmp ra rc => packLiteral (opc .jmp) rc ra 0
  | .beq ra lit rc => packLiteral (opc .beq) rc ra lit
  | .bne ra lit rc => packLiteral (opc .bne) rc ra lit
  | .ldr lit rc => packLiteral (opc .ldr) rc 0 lit
  | .add ra rb rc => packRegister (opc .add) rc ra rb
  | .sub ra rb rc => packRegister (opc .sub) rc ra rb
  | .mul ra rb rc => packRegister (opc .mul) rc ra rb
  | .div ra rb rc => packRegister (opc .div) rc ra rb
  | .cmpeq ra rb rc => packRegister (opc .cmpeq) rc ra rb
  | .cmplt ra rb rc => packRegister (opc .cmplt) rc ra rb
  | .cmple ra rb rc => packRegister (opc .cmple) rc ra rb
  | .and ra rb rc => packRegister (opc .and) rc ra rb
  | .or ra rb rc => packRegister (opc .or) rc ra rb
  | .xor ra rb rc => packRegister (opc .xor) rc ra rb
  | .shl ra rb rc => packRegister (opc .shl) rc ra rb
  | .shr ra rb rc => packRegister (opc .shr) rc ra rb
  | .sra ra rb rc => packRegister (opc .sra) rc ra rb
  | .addc ra lit rc => packLiteral (opc .addc) rc ra lit
  | .subc ra lit rc => packLiteral (opc .subc) rc ra lit
  | .mulc ra lit rc => packLiteral (opc .mulc) rc ra lit
  | .divc ra lit rc => packLiteral (opc .divc) rc ra lit
  | .cmpeqc ra lit rc => packLiteral (opc .cmpeqc) rc ra lit
  | .cmpltc ra lit rc => packLiteral (opc .cmpltc) rc ra lit
  | .cmplec ra lit rc => packLiteral (opc .cmplec) rc ra lit
  | .andc ra lit rc => packLiteral (opc .andc) rc ra lit
  | .orc ra lit rc => packLiteral (opc .orc) rc ra lit
  | .xorc ra lit rc => packLiteral (opc .xorc) rc ra lit
  | .shlc ra lit rc => packLiteral (opc .shlc) rc ra lit
  | .shrc ra lit rc => packLiteral (opc .shrc) rc ra lit
  | .srac ra lit rc => packLiteral (opc .srac) rc ra lit

/-- The canonical word of an instruction under the machine's opcode map (30_encoding R57). -/
def encode (i : Instr) : Word := encodeWith opcodeNumber i

/-- The canonical bytes of an instruction, in memory order (20_memory R29). -/
def encodeBytes (i : Instr) : List Byte := wordBytes (encode i)

/-- Which bits of its word an instruction uses (30_encoding R50): HALT ignores 25..0, JMP 15..0, LDR 20..16, the
register-form ALU instructions 10..0. -/
def usedBits (m : Mnemonic) : Word :=
  match m with
  | .halt => 0xFC000000
  | .jmp => 0xFFFF0000
  | .ldr => 0xFFE0FFFF
  | .ld => 0xFFFFFFFF
  | .st => 0xFFFFFFFF
  | .beq => 0xFFFFFFFF
  | .bne => 0xFFFFFFFF
  | .add => 0xFFFFF800
  | .sub => 0xFFFFF800
  | .mul => 0xFFFFF800
  | .div => 0xFFFFF800
  | .cmpeq => 0xFFFFF800
  | .cmplt => 0xFFFFF800
  | .cmple => 0xFFFFF800
  | .and => 0xFFFFF800
  | .or => 0xFFFFF800
  | .xor => 0xFFFFF800
  | .shl => 0xFFFFF800
  | .shr => 0xFFFFF800
  | .sra => 0xFFFFF800
  | .addc => 0xFFFFFFFF
  | .subc => 0xFFFFFFFF
  | .mulc => 0xFFFFFFFF
  | .divc => 0xFFFFFFFF
  | .cmpeqc => 0xFFFFFFFF
  | .cmpltc => 0xFFFFFFFF
  | .cmplec => 0xFFFFFFFF
  | .andc => 0xFFFFFFFF
  | .orc => 0xFFFFFFFF
  | .xorc => 0xFFFFFFFF
  | .shlc => 0xFFFFFFFF
  | .shrc => 0xFFFFFFFF
  | .srac => 0xFFFFFFFF

/-- The host's question: the instruction the decoder reads from the instruction whose bits are `w`, bits above `nbits`
being zero; the word is laid out as memory holds it, least significant byte first. -/
def decodeTableWord (nbits w : Nat) : Option Instr :=
  match decode (wordBytes (BitVec.ofNat 32 (w % 2 ^ nbits))) with
  | .ok (i, _) => some i
  | .error _ => none

end Sys2Proof
end

