-- ==== Sys2Proof/Machine/Params.lean ====
section
/-!
DEFINITION. The parameters of 00_scope R5 that the spec leaves OPEN, "the model takes the named parameter as an argument"
(92_eei_decisions D1, D19), as one record: every operation that depends on one takes the record (`stepWith`,
`raiseInterruptWith`, `disassembleWith`, `performWith`), and the operation without `With` in its name is that operation at
the spec's defaults. The sizes `P`, `V`, `K` are arguments of reset, and `MEM_INIT` stays at its default (log entry 3).
-/
namespace Sys2Proof.Machine

/-- The open parameters (00_scope R5). -/
structure Params where
  /-- `OPC`, decision D1: the 6-bit number of each mnemonic -/
  opc : OpcodeMap
  /-- `IRQ_TYPE_ADDR`, decision D19: where delivery stores the event type -/
  irqTypeAddr : Layout → Nat
  /-- `IRQ_KEY_ADDR`, decision D19: where delivery stores the key value -/
  irqKeyAddr : Layout → Nat

/-- What the spec asks of `OPC`: "a one-to-one map from the 33 mnemonics to 6-bit values with `OPC(HALT) = 0`" (D1). -/
structure Params.WellFormed (p : Params) : Prop where
  opc_injective : ∀ m n, p.opc m = p.opc n → m = n
  opc_halt : p.opc .halt = 0

/-- `IRQ_TYPE_ADDR`'s default: offset 13 counted in words, `KB + 52` (60_exceptions R131). DESIGN CHOICE (D19, log
entry 19). -/
def irqTypeAddr (l : Layout) : Nat := l.kernelBase + 4 * Config.irqTypeIndex

/-- `IRQ_KEY_ADDR`'s default: offset 14 counted in words, `KB + 56` (60_exceptions R131). DESIGN CHOICE (D19, log
entry 19). -/
def irqKeyAddr (l : Layout) : Nat := l.kernelBase + 4 * Config.irqKeyIndex

/-- The spec's defaults: the opcode numbers of 30_encoding R53 (log entry 4) and the addresses of 60_exceptions R131. -/
def defaultParams : Params := { opc := opcodeNumber, irqTypeAddr := irqTypeAddr, irqKeyAddr := irqKeyAddr }

end Sys2Proof.Machine
end

