-- ==== Sys2Proof/Machine/State.lean ====
section
/-!
DEFINITION. The state of the machine (10_state), the reports of 60_exceptions R122, the reasons a step can stop, and
the state after reset.
-/
namespace Sys2Proof.Machine

/-- Memory's contents: the (address, byte) pairs that differ from `Config.memInit`, addresses strictly rising. -/
abbrev Memory := List Host.Cell

/-- The canonical form: addresses strictly rising, no entry equal to what an unlisted address reads as. -/
def Memory.wf : Memory → Bool
  | [] => true
  | [c] => c.2 != Config.memInit
  | c :: d :: rest => c.2 != Config.memInit && decide (c.1 < d.1) && Memory.wf (d :: rest)

/-- Every listed address exists: it is below `size` (20_memory R25). -/
def Memory.below (m : Memory) (size : Nat) : Bool := m.all (fun c => decide (c.1 < size))

/-- The reported conditions of 60_exceptions R122. -/
inductive Report where
  /-- a read or fetch at `addr >= MEM_SIZE` (R123) -/
  | outOfRangeRead (addr : Word)
  /-- a write with `addr + 4 > MEM_SIZE` (R124) -/
  | outOfRangeWrite (addr : Word)
  /-- a fetched word whose opcode selects no instruction (R125) -/
  | invalidOpcode (word : Word)
  /-- DIV or DIVC by zero (R126) -/
  | divideByZero
  /-- the accessor `read_register` given an index outside `0..31` (R127) -/
  | invalidRegister (index : Nat)
  /-- an image larger than its region (R144) -/
  | imageTooLarge
  deriving DecidableEq, Repr

/-- The one-bit event type of `raise_interrupt` (60_exceptions R128, D20). -/
inductive IrqType where
  /-- type 0 -/
  | keyDown
  /-- type 1 -/
  | keyUp
  deriving DecidableEq, Repr

/-- The whole machine (10_state R10 to R20); the last two fields are the MODEL's own (log entry 5). -/
structure State where
  /-- `X[0] .. X[31]`, slot 31 (dead storage) among them (10_state R10, R12) -/
  regs : Vector Word 32
  /-- byte address of the next instruction (10_state R13) -/
  pc : Word
  /-- 10_state R15 -/
  halted : Bool
  /-- `interrupt_in_service` (10_state R16) -/
  iis : Bool
  /-- `last_accessed_address` (10_state R17) -/
  laa : Word
  /-- `loaded_program_length`, a byte count (10_state R18) -/
  lpl : Nat
  /-- `P`, `V`, `K` (10_state R19) -/
  layout : Layout
  /-- 10_state R20 -/
  mem : Memory
  /-- model's own: the set of reports of the latest operation on the machine, an output (60_exceptions R121) -/
  reports : List Report
  /-- model's own: the sticky fault mark that 60_exceptions R121 and decision D26 ask for -/
  faulted : Bool
  deriving DecidableEq, Repr

/-- Why a step stops. -/
inductive Fault where
  /-- `step` found `pc` not a multiple of 4: "a model that admits other configurations must treat it as a fault"
  (10_state R14; U5). Safe: nothing is claimed of what follows. Not reachable in a well-formed layout. -/
  | misalignedPc (pc : Word)
  deriving DecidableEq, Repr

/-- Why an operation has no meaning. -/
inductive Refusal where
  /-- an instruction the dispatch has no meaning for; raised by no arm. Safe. -/
  | notModelled (mnemonic : String)
  /-- `resetMachine` was given a layout that is not well formed: "a model refuses it at reset" (00_scope R6). Safe. -/
  | illFormedLayout (layout : Layout)
  deriving DecidableEq, Repr

/-- The reset state for a layout (10_state R24, 70_reset R146): `pc`, `halted` as stated; registers, `iis`, `laa`,
`lpl` zero by decision D5 (DESIGN CHOICE, log entry 2); memory `MEM_INIT` (log entry 3). -/
def State.resetWith (l : Layout) : State :=
  { regs := Vector.replicate 32 0
    pc := 0
    halted := false
    iis := false
    laa := 0
    lpl := 0
    layout := l
    mem := []
    reports := []
    faulted := false }

/-- The machine right after reset, with the layout of log entry 1. -/
def State.reset : State := State.resetWith Config.defaultLayout

end Sys2Proof.Machine
end

