-- ==== Sys2Proof/Machine/Ops.lean ====
section
/-!
DEFINITION. The named operations: register ports (10_state), memory bytes and words (20_memory), reports
(60_exceptions R121), the parts of a step around its arm (40_step_halt), the interrupt controller (60_exceptions R128 to
R137), reset and the loaders (70_reset R146, 20_memory R41, R42), and the read accessors (10_state R23).
-/
namespace Sys2Proof.Machine

/-! ### Registers -/

/-- The raw storage `X[i]` of a slot, with no override (10_state R10). -/
def State.slot (s : State) (i : RegIdx) : Word := s.regs[i.toNat]'i.isLt

/-- A register read `x[i]`: the stored word for `0..30`, zero for 31 (10_state R11). -/
def readReg (s : State) (i : RegIdx) : Word := if i = Config.regZero then 0 else s.slot i

/-- A register write `x[i] <- v`: it stores for every index, 31 included (10_state R12). -/
def writeReg (s : State) (i : RegIdx) (v : Word) : State := { s with regs := s.regs.set i.toNat v i.isLt }

/-! ### Reports -/

/-- `raise X(info)`: add the report to the operation's set (60_exceptions R121) and set the model's sticky mark (D26). -/
def raiseReport (s : State) (r : Report) : State := { s with reports := s.reports ++ [r], faulted := true }

/-- The start of an operation: its report set is empty (60_exceptions R121: reports are not remembered). -/
def beginOperation (s : State) : State := { s with reports := [] }

/-- The end of a read accessor: the report set it raised becomes the operation's, and each report is folded into the sticky
mark as any other is (60_exceptions R121). Only the model's own two fields change: the accessors "return state and change
nothing" (10_state R23). -/
def recordReports (s : State) (rs : List Report) : State :=
  { s with reports := rs, faulted := s.faulted || !rs.isEmpty }

/-! ### Memory -/

/-- One byte; an unlisted address holds `MEM_INIT` (70_reset R147). -/
def Memory.readByte : Memory → Nat → Byte
  | [], _ => Config.memInit
  | c :: rest, a => if c.1 = a then c.2 else Memory.readByte rest a

/-- Put a cell before the first listed address above its own. -/
def Memory.insertCell (a : Nat) (v : Byte) : Memory → Memory
  | [] => [(a, v)]
  | c :: rest => if a < c.1 then (a, v) :: c :: rest else c :: Memory.insertCell a v rest

/-- Forget what is listed at an address. -/
def Memory.eraseCell (m : Memory) (a : Nat) : Memory := m.filter (fun c => c.1 != a)

/-- Store one byte, keeping the canonical form. -/
def Memory.writeByte (m : Memory) (a : Nat) (v : Byte) : Memory :=
  if v = Config.memInit then m.eraseCell a else Memory.insertCell a v (m.eraseCell a)

/-- Store bytes at increasing addresses from `a` (20_memory R33, R41). -/
def Memory.writeBytes (m : Memory) (a : Nat) : List Byte → Memory
  | [] => m
  | b :: bs => Memory.writeBytes (m.writeByte a b) (a + 1) bs

/-- Byte `a` of the array; past its end the zero padding of a tail read (20_memory R31) and the 0 that an out-of-range
read yields (20_memory R32). -/
def byteOrZero (s : State) (a : Nat) : Byte := if a < s.layout.memSize then s.mem.readByte a else 0

/-- The value of a word read at `addr` in all three cases, little-endian (20_memory R29 to R32). The address is a
number, so `addr + 3` does not wrap (20_memory R38). -/
def wordAt (s : State) (addr : Nat) : Word :=
  wordOfBytes (byteOrZero s addr) (byteOrZero s (addr + 1)) (byteOrZero s (addr + 2)) (byteOrZero s (addr + 3))

/-- `FetchWord(addr)`: the value and the report of a read; `laa` is not changed (20_memory R35). -/
def fetchWord (s : State) (addr : Word) : Word × State :=
  (wordAt s addr.toNat,
    if addr.toNat < s.layout.memSize then s else raiseReport s (.outOfRangeRead addr))

/-- `MemRead(addr, 4)`: in range and tail reads record `laa`; an out-of-range read yields 0, reports, and leaves `laa`
(20_memory R30, R31, R32). -/
def memRead (s : State) (addr : Word) : Word × State :=
  (wordAt s addr.toNat,
    if addr.toNat < s.layout.memSize then { s with laa := addr } else raiseReport s (.outOfRangeRead addr))

/-- `MemWrite(addr, 4, v)`: in range, four bytes and `laa`; otherwise no byte, `laa` unchanged, and a report
(20_memory R33, R34). -/
def memWrite (s : State) (addr : Word) (v : Word) : State :=
  if addr.toNat + 4 ≤ s.layout.memSize then
    { s with mem := s.mem.writeBytes addr.toNat (wordBytes v), laa := addr }
  else raiseReport s (.outOfRangeWrite addr)

/-! ### Program counter -/

/-- Sequential advance, `pc + 4` modulo `2^32` (10_state R13, 40_step_halt R64). -/
def advance (s : State) : State := { s with pc := s.pc + 4 }

/-- Write a result to `Rc` and advance (43_alu_register R79, 44_alu_literal R96). -/
def retire (s : State) (rc : RegIdx) (v : Word) : State := advance (writeReg s rc v)

/-- The link write of JMP, BEQ and BNE: `x[Rc] <- pc + 4` (42_control_transfer R74). -/
def writeLink (s : State) (rc : RegIdx) : State := writeReg s rc (s.pc + 4)

/-! ### The interrupt controller -/

/-- `HANDLER_ENTRY = P + V + 400` (60_exceptions R130). -/
def handlerEntry (l : Layout) : Nat := l.kernelBase + Config.handlerOffset

/-- The word stored for the event type (60_exceptions R131). -/
def irqTypeWord : IrqType → Word
  | .keyDown => 0
  | .keyUp => 1

/-- Steps 1 to 3 of a delivery but for the sentinel: the in-service flag, `pc` saved in the return register, the entry
point, and `lpl + 4` in the stack register (60_exceptions R130). -/
def saveContext (s : State) : State :=
  { writeReg (writeReg s Config.regXp s.pc) Config.regSp (BitVec.ofNat 32 (s.lpl + 4)) with
    iis := true
    pc := BitVec.ofNat 32 (handlerEntry s.layout) }

/-- Steps 1 to 3 of a delivery, the sentinel word `KB` at address `lpl` included (60_exceptions R130). -/
def enterHandler (s : State) : State :=
  memWrite (saveContext s) (BitVec.ofNat 32 s.lpl) (BitVec.ofNat 32 s.layout.kernelBase)

/-- The first write of step 4: the type word (60_exceptions R131). -/
def writeIrqType (p : Params) (s : State) (ty : IrqType) : State :=
  memWrite s (BitVec.ofNat 32 (p.irqTypeAddr s.layout)) (irqTypeWord ty)

/-- Step 4 of a delivery: the type word, and on key-down the key word (60_exceptions R131). -/
def writeIrqMetadata (p : Params) (s : State) (ty : IrqType) (key : Word) : State :=
  match ty with
  | .keyDown => memWrite (writeIrqType p s ty) (BitVec.ofNat 32 (p.irqKeyAddr s.layout)) key
  | .keyUp => writeIrqType p s ty

/-- TAKING THE INTERRUPT: `raise_interrupt(type, key_value)`, dropped when one is in service (60_exceptions R129),
delivered otherwise (R130, R131), a halted machine included (R145). The metadata addresses are parameters (D19). -/
def raiseInterruptWith (p : Params) (s : State) (ty : IrqType) (key : Word) : State :=
  if s.iis then beginOperation s else writeIrqMetadata p (enterHandler (beginOperation s)) ty key

/-- `raise_interrupt(type, key_value)` with the default addresses (log entry 19). -/
def raiseInterrupt (s : State) (ty : IrqType) (key : Word) : State := raiseInterruptWith defaultParams s ty key

/-- RETURNING FROM IT: there is no return instruction; the flag clears at the start of a step that finds `pc < P`
(40_step_halt R61, 60_exceptions R134). -/
def completeInterrupt (s : State) : State :=
  if s.pc.toNat < s.layout.progSize then { s with iis := false } else s

/-! ### The parts of a step around its arm -/

/-- What happens before the fetch of a step that is not refused by `halted` (40_step_halt R59, R61). -/
def beginStep (s : State) : State := completeInterrupt (beginOperation s)

/-- The default row: the report, and nothing else (40_step_halt R66). -/
def onInvalidOpcode (s : State) (w : Word) : State := raiseReport s (.invalidOpcode w)

/-- DIV or DIVC by zero: the report and the halt; `pc` and `Rc` unchanged (43_alu_register R83, 60_exceptions R126). -/
def onDivideByZero (s : State) : State := { raiseReport s .divideByZero with halted := true }

/-! ### Reset and the loaders -/

/-- `reset(P, V, K)`: a fresh machine; a layout that is not well formed is refused (70_reset R146, 00_scope R6). -/
def resetMachine (l : Layout) : Host.Outcome State Fault Refusal :=
  if l.wf then .next (State.resetWith l) else .refused (.illFormedLayout l)

/-- The address of the last word of an image of length `n`, or its start (20_memory R41). -/
def lastWordAddr (n : Nat) : Nat := if 4 ≤ n then n - 4 else 0

/-- `load_program(bytes)` (20_memory R41, 60_exceptions R144). -/
def loadProgram (s : State) (bytes : List Byte) : State :=
  let s := beginOperation s
  if s.layout.progSize < bytes.length then raiseReport s .imageTooLarge
  else
    { s with
      mem := s.mem.writeBytes 0 bytes
      lpl := bytes.length
      laa := BitVec.ofNat 32 (lastWordAddr bytes.length) }

/-- `load_handler(bytes)`: `lpl` and `laa` unchanged (20_memory R42, 60_exceptions R144). -/
def loadHandler (s : State) (bytes : List Byte) : State :=
  let s := beginOperation s
  if s.layout.kernSize < bytes.length + Config.handlerOffset then raiseReport s .imageTooLarge
  else { s with mem := s.mem.writeBytes (handlerEntry s.layout) bytes }

/-! ### Read accessors -/

/-- `read_register(i)`: the read port for `0..31`, otherwise 0 and `InvalidRegister(i)` (10_state R23). -/
def readRegister (s : State) (i : Nat) : Word × List Report :=
  if i < 32 then (readReg s (BitVec.ofNat 5 i), []) else (0, [.invalidRegister i])

/-- `read_memory_word(addr)`: what `FetchWord` gives (10_state R23, 20_memory R35). -/
def readMemoryWord (s : State) (addr : Word) : Word × List Report :=
  (wordAt s addr.toNat, if addr.toNat < s.layout.memSize then [] else [.outOfRangeRead addr])

end Sys2Proof.Machine
end

