-- ==== Sys2Proof/Machine/Operands.lean ====
section
/-!
DEFINITION. Every operand form of the instruction set (30_encoding R48; 41_load_store R72; 20_memory R38;
42_control_transfer R75, R76).
-/
namespace Sys2Proof.Machine

/-- The literal as a 32-bit operand: bit 15 copied into bits 31..16 (30_encoding R48); never zero-extended. -/
def sext16 (lit : Lit) : Word := lit.signExtend 32

/-- Register plus byte offset, LD and ST: not masked, not aligned (41_load_store R69, 20_memory R36, R38). -/
def baseOffset (s : State) (ra : RegIdx) (lit : Lit) : Word := readReg s ra + sext16 lit

/-- `pc + 4` plus word offset: LDR's target and the branch targets (41_load_store R71, 42_control_transfer R76). -/
def pcRelative (s : State) (lit : Lit) : Word := s.pc + 4 + 4 * sext16 lit

/-- JMP's target: the register with bits 1..0 cleared (42_control_transfer R75). -/
def jumpTarget (s : State) (ra : RegIdx) : Word := readReg s ra &&& 0xFFFFFFFC

/-- The shift count: the low five bits of the second operand (43_alu_register R94). -/
def shiftCount (b : Word) : Nat := (b.extractLsb' 0 5).toNat

end Sys2Proof.Machine
end

