-- ==== Sys2Proof/Machine/Flags.lean ====
section
/-!
DEFINITION. The block has no flags (10_state R21): "compare instructions write `Rc` and branches test a general
register". What stands here is those conditions: the 0 or 1 a comparison writes and the branch tests.
-/
namespace Sys2Proof.Machine

/-- A comparison's result as a word: 1 when it holds, else 0 (43_alu_register R84). PRESUMED (D13, G4, log entry 10). -/
def conditionWord (c : Bool) : Word := if c then 1 else 0

/-- CMPEQ and CMPEQC: all 32 bits equal (43_alu_register R84). -/
def isEqual (a b : Word) : Bool := a == b

/-- CMPLT and CMPLTC: signed (43_alu_register R85). -/
def isLess (a b : Word) : Bool := a.slt b

/-- CMPLE and CMPLEC: signed (43_alu_register R86). -/
def isLessOrEqual (a b : Word) : Bool := a.sle b

/-- The test of BEQ; BNE takes its negation: all 32 bits zero (42_control_transfer R76, R77). -/
def isZero (a : Word) : Bool := a == 0

end Sys2Proof.Machine
end

