-- ==== Sys2Proof/Machine/Alu.lean ====
section
/-!
DEFINITION. The thirteen operators of the ALU (43_alu_register R80 to R95) and the two operand templates
(43_alu_register R79, 44_alu_literal R96), shared by the register and the literal forms.
-/
namespace Sys2Proof.Machine

def aluAdd (a b : Word) : Word := a + b

def aluSub (a b : Word) : Word := a - b

/-- The low 32 bits of the product (43_alu_register R82). -/
def aluMul (a b : Word) : Word := a * b

/-- The signed quotient, rounded toward zero and narrowed (43_alu_register R83, R93). DESIGN CHOICE (D12, log
entry 9), unsafe; used for a non-zero `b` only. -/
def aluDiv (a b : Word) : Word := trunc32 (a.toInt.tdiv b.toInt)

def aluCmpeq (a b : Word) : Word := conditionWord (isEqual a b)

def aluCmplt (a b : Word) : Word := conditionWord (isLess a b)

def aluCmple (a b : Word) : Word := conditionWord (isLessOrEqual a b)

def aluAnd (a b : Word) : Word := a &&& b

def aluOr (a b : Word) : Word := a ||| b

def aluXor (a b : Word) : Word := a ^^^ b

/-- Zeros enter at bit 0 (43_alu_register R90, R94). -/
def aluShl (a b : Word) : Word := a <<< shiftCount b

/-- Zeros enter at bit 31 (43_alu_register R91, R94). PRESUMED (D14, G5, log entry 11). -/
def aluShr (a b : Word) : Word := a >>> shiftCount b

/-- Copies of bit 31 enter at the top, all of them (43_alu_register R92, 90_conflicts C3; log entry 16). -/
def aluSra (a b : Word) : Word := a.sshiftRight (shiftCount b)

/-- The register template: both reads before the write (43_alu_register R79). -/
def aluRegister (op : Word → Word → Word) (ra rb rc : RegIdx) (s : State) : Host.Outcome State Fault Refusal :=
  .next (retire s rc (op (readReg s ra) (readReg s rb)))

/-- The literal template: the sign-extended literal is the second operand (44_alu_literal R96). -/
def aluLiteral (op : Word → Word → Word) (ra : RegIdx) (lit : Lit) (rc : RegIdx) (s : State) :
    Host.Outcome State Fault Refusal :=
  .next (retire s rc (op (readReg s ra) (sext16 lit)))

/-- DIV and DIVC once their operands are read (43_alu_register R83, 44_alu_literal R100). -/
def divideInto (a b : Word) (rc : RegIdx) (s : State) : Host.Outcome State Fault Refusal :=
  if isZero b then .next (onDivideByZero s) else .next (retire s rc (aluDiv a b))

end Sys2Proof.Machine
end

