-- ==== Sys2Proof/Machine/AluLiteral.lean ====
section
/-!
DEFINITION. The literal-form ALU instructions (44_alu_literal R96 to R109).
-/
namespace Sys2Proof.Machine

/-- 44_alu_literal R97 -/
def execAddc (ra : RegIdx) (lit : Lit) (rc : RegIdx) (s : State) : Host.Outcome State Fault Refusal :=
  aluLiteral aluAdd ra lit rc s

/-- 44_alu_literal R98 -/
def execSubc (ra : RegIdx) (lit : Lit) (rc : RegIdx) (s : State) : Host.Outcome State Fault Refusal :=
  aluLiteral aluSub ra lit rc s

/-- 44_alu_literal R99 -/
def execMulc (ra : RegIdx) (lit : Lit) (rc : RegIdx) (s : State) : Host.Outcome State Fault Refusal :=
  aluLiteral aluMul ra lit rc s

/-- 44_alu_literal R100 -/
def execDivc (ra : RegIdx) (lit : Lit) (rc : RegIdx) (s : State) : Host.Outcome State Fault Refusal :=
  divideInto (readReg s ra) (sext16 lit) rc s

/-- 44_alu_literal R101 -/
def execCmpeqc (ra : RegIdx) (lit : Lit) (rc : RegIdx) (s : State) : Host.Outcome State Fault Refusal :=
  aluLiteral aluCmpeq ra lit rc s

/-- 44_alu_literal R102 -/
def execCmpltc (ra : RegIdx) (lit : Lit) (rc : RegIdx) (s : State) : Host.Outcome State Fault Refusal :=
  aluLiteral aluCmplt ra lit rc s

/-- 44_alu_literal R103 -/
def execCmplec (ra : RegIdx) (lit : Lit) (rc : RegIdx) (s : State) : Host.Outcome State Fault Refusal :=
  aluLiteral aluCmple ra lit rc s

/-- 44_alu_literal R104 -/
def execAndc (ra : RegIdx) (lit : Lit) (rc : RegIdx) (s : State) : Host.Outcome State Fault Refusal :=
  aluLiteral aluAnd ra lit rc s

/-- 44_alu_literal R105 -/
def execOrc (ra : RegIdx) (lit : Lit) (rc : RegIdx) (s : State) : Host.Outcome State Fault Refusal :=
  aluLiteral aluOr ra lit rc s

/-- 44_alu_literal R106 -/
def execXorc (ra : RegIdx) (lit : Lit) (rc : RegIdx) (s : State) : Host.Outcome State Fault Refusal :=
  aluLiteral aluXor ra lit rc s

/-- 44_alu_literal R107 -/
def execShlc (ra : RegIdx) (lit : Lit) (rc : RegIdx) (s : State) : Host.Outcome State Fault Refusal :=
  aluLiteral aluShl ra lit rc s

/-- 44_alu_literal R108 -/
def execShrc (ra : RegIdx) (lit : Lit) (rc : RegIdx) (s : State) : Host.Outcome State Fault Refusal :=
  aluLiteral aluShr ra lit rc s

/-- 44_alu_literal R109 -/
def execSrac (ra : RegIdx) (lit : Lit) (rc : RegIdx) (s : State) : Host.Outcome State Fault Refusal :=
  aluLiteral aluSra ra lit rc s

end Sys2Proof.Machine
end

