-- ==== Sys2Proof/Machine/AluRegister.lean ====
section
/-!
DEFINITION. The register-form ALU instructions (43_alu_register R79 to R92).
-/
namespace Sys2Proof.Machine

/-- 43_alu_register R80 -/
def execAdd (ra rb rc : RegIdx) (s : State) : Host.Outcome State Fault Refusal :=
  aluRegister aluAdd ra rb rc s

/-- 43_alu_register R81 -/
def execSub (ra rb rc : RegIdx) (s : State) : Host.Outcome State Fault Refusal :=
  aluRegister aluSub ra rb rc s

/-- 43_alu_register R82 -/
def execMul (ra rb rc : RegIdx) (s : State) : Host.Outcome State Fault Refusal :=
  aluRegister aluMul ra rb rc s

/-- 43_alu_register R83 -/
def execDiv (ra rb rc : RegIdx) (s : State) : Host.Outcome State Fault Refusal :=
  divideInto (readReg s ra) (readReg s rb) rc s

/-- 43_alu_register R84 -/
def execCmpeq (ra rb rc : RegIdx) (s : State) : Host.Outcome State Fault Refusal :=
  aluRegister aluCmpeq ra rb rc s

/-- 43_alu_register R85 -/
def execCmplt (ra rb rc : RegIdx) (s : State) : Host.Outcome State Fault Refusal :=
  aluRegister aluCmplt ra rb rc s

/-- 43_alu_register R86 -/
def execCmple (ra rb rc : RegIdx) (s : State) : Host.Outcome State Fault Refusal :=
  aluRegister aluCmple ra rb rc s

/-- 43_alu_register R87 -/
def execAnd (ra rb rc : RegIdx) (s : State) : Host.Outcome State Fault Refusal :=
  aluRegister aluAnd ra rb rc s

/-- 43_alu_register R88 -/
def execOr (ra rb rc : RegIdx) (s : State) : Host.Outcome State Fault Refusal :=
  aluRegister aluOr ra rb rc s

/-- 43_alu_register R89 -/
def execXor (ra rb rc : RegIdx) (s : State) : Host.Outcome State Fault Refusal :=
  aluRegister aluXor ra rb rc s

/-- 43_alu_register R90 -/
def execShl (ra rb rc : RegIdx) (s : State) : Host.Outcome State Fault Refusal :=
  aluRegister aluShl ra rb rc s

/-- 43_alu_register R91 -/
def execShr (ra rb rc : RegIdx) (s : State) : Host.Outcome State Fault Refusal :=
  aluRegister aluShr ra rb rc s

/-- 43_alu_register R92 -/
def execSra (ra rb rc : RegIdx) (s : State) : Host.Outcome State Fault Refusal :=
  aluRegister aluSra ra rb rc s

end Sys2Proof.Machine
end

