-- ==== Sys2Proof/Machine/Control.lean ====
section
/-!
DEFINITION. JMP, BEQ and BNE (42_control_transfer R74 to R77). The link is written before `x[Ra]` is read (R74(b),
decision D16: DESIGN CHOICE, log entry 13).
-/
namespace Sys2Proof.Machine

/-- `pc` after a branch: the pc-relative target when taken, else `pc + 4` (42_control_transfer R76, R77). -/
def branchIf (taken : Bool) (lit : Lit) (s : State) : State :=
  if taken then { s with pc := pcRelative s lit } else advance s

/-- Link, then jump to `x[Ra]` with bits 1..0 cleared (42_control_transfer R75). -/
def execJmp (ra rc : RegIdx) (s : State) : Host.Outcome State Fault Refusal :=
  .next { writeLink s rc with pc := jumpTarget (writeLink s rc) ra }

/-- Link, then branch if `x[Ra]` is zero (42_control_transfer R76). -/
def execBeq (ra : RegIdx) (lit : Lit) (rc : RegIdx) (s : State) : Host.Outcome State Fault Refusal :=
  .next (branchIf (isZero (readReg (writeLink s rc) ra)) lit (writeLink s rc))

/-- Link, then branch if `x[Ra]` is not zero (42_control_transfer R77). -/
def execBne (ra : RegIdx) (lit : Lit) (rc : RegIdx) (s : State) : Host.Outcome State Fault Refusal :=
  .next (branchIf (!isZero (readReg (writeLink s rc) ra)) lit (writeLink s rc))

end Sys2Proof.Machine
end

