-- ==== Sys2Proof/Machine/Halt.lean ====
section
/-!
DEFINITION. HALT (40_step_halt R65).
-/
namespace Sys2Proof.Machine

/-- Enter `Halted`; everything else, `pc` included, is unchanged (40_step_halt R65). -/
def execHalt (s : State) : Host.Outcome State Fault Refusal := .next { s with halted := true }

end Sys2Proof.Machine
end

