-- ==== Sys2Proof/Machine/LoadStore.lean ====
section
/-!
DEFINITION. LD, ST and LDR (41_load_store R69 to R71).
-/
namespace Sys2Proof.Machine

/-- Load the word at an address into `Rc` and advance: LD and LDR's load arm. -/
def loadInto (s : State) (addr : Word) (rc : RegIdx) : State := retire (memRead s addr).2 rc (memRead s addr).1

/-- Store `x[Rc]` at an address and advance: ST and LDR's store arm. -/
def storeFrom (s : State) (addr : Word) (rc : RegIdx) : State := advance (memWrite s addr (readReg s rc))

/-- LDR stores instead of loading when its target is strictly above the kernel base (41_load_store R71, C4; log
entry 28). -/
def ldrStores (s : State) (target : Word) : Bool := decide (s.layout.kernelBase < target.toNat)

/-- `x[Rc] <- MemRead(x[Ra] + sext(lit), 4)` (41_load_store R69). -/
def execLd (ra : RegIdx) (lit : Lit) (rc : RegIdx) (s : State) : Host.Outcome State Fault Refusal :=
  .next (loadInto s (baseOffset s ra lit) rc)

/-- `MemWrite(x[Ra] + sext(lit), 4, x[Rc])` (41_load_store R70). -/
def execSt (rc : RegIdx) (lit : Lit) (ra : RegIdx) (s : State) : Host.Outcome State Fault Refusal :=
  .next (storeFrom s (baseOffset s ra lit) rc)

/-- A pc-relative load, or a store above the kernel base (41_load_store R71). -/
def execLdr (lit : Lit) (rc : RegIdx) (s : State) : Host.Outcome State Fault Refusal :=
  if ldrStores s (pcRelative s lit) then .next (storeFrom s (pcRelative s lit) rc)
  else .next (loadInto s (pcRelative s lit) rc)

end Sys2Proof.Machine
end

