-- ==== Sys2Proof/Machine/Step.lean ====
section
/-!
DEFINITION. One step (40_step_halt R59), and the host's `withFetchWord`.
-/
namespace Sys2Proof.Machine

/-- `step()` (40_step_halt R59), for any opcode numbers (D1): nothing on a halted machine (R60); a fault at a misaligned `pc` (10_state R14, U5);
otherwise the in-service clear (R61), the fetch (R62), and one arm (R63) or the default row (R66). A fetch beyond memory
yields the word 0, which is HALT (R67). -/
def stepWith (p : Params) (s : State) : Host.Outcome State Fault Refusal :=
  if s.halted then .next (beginOperation s)
  else if s.pc.toNat % 4 ≠ 0 then .fault (.misalignedPc s.pc)
  else
    match decodeWordWith p.opc (fetchWord (beginStep s) s.pc).1 with
    | some i => exec i (fetchWord (beginStep s) s.pc).2
    | none => .next (onInvalidOpcode (fetchWord (beginStep s) s.pc).2 (fetchWord (beginStep s) s.pc).1)

/-- `step()` with the default opcode numbers (log entry 4). -/
def step (s : State) : Host.Outcome State Fault Refusal := stepWith defaultParams s

/-- `s` with the instruction word `w` (bits above `nbits` zero) stored where `step` fetches next, at `pc`, and not
halted, since a halted machine fetches nothing (40_step_halt R60). For a `pc` that is a multiple of 4 with
`pc + 4 <= MEM_SIZE`. It stands for the load from outside that places a program (log entry 25). -/
def State.withFetchWord (s : State) (nbits w : Nat) : State :=
  { s with
    halted := false
    mem := s.mem.writeBytes s.pc.toNat (wordBytes (BitVec.ofNat 32 (w % 2 ^ nbits))) }

end Sys2Proof.Machine
end

