-- ==== Sys2Proof/Machine/Disassembler.lean ====
section
/-!
DEFINITION. The disassembler (45_disassembler): a pure function of the word, sharing the decoder's fields and opcode map.
Text is built as a list of characters. The exact spelling is decision D25 (DESIGN CHOICE, log entry 23).
-/
namespace Sys2Proof.Machine

/-- Decimal digits of a number without leading zeros, most significant first; `fuel` bounds their count. -/
def decimalChars : Nat → Nat → List Char
  | 0, _ => []
  | fuel + 1, n =>
    if n < 10 then [Char.ofNat (48 + n)] else decimalChars fuel (n / 10) ++ [Char.ofNat (48 + n % 10)]

/-- A register operand: `R` and the index in decimal (45_disassembler R113). -/
def renderReg (r : RegIdx) : List Char := 'R' :: decimalChars 2 r.toNat

/-- A literal operand: the signed value in decimal, `-` when negative (45_disassembler R113). -/
def renderLit (l : Lit) : List Char :=
  if l.toInt < 0 then '-' :: decimalChars 5 l.toInt.natAbs else decimalChars 5 l.toInt.natAbs

/-- Operands separated by a comma and one space (45_disassembler R113). -/
def joinOperands : List (List Char) → List Char
  | [] => []
  | [x] => x
  | x :: y :: rest => x ++ [',', ' '] ++ joinOperands (y :: rest)

/-- Mnemonic, `(`, operands, `)` (45_disassembler R113). -/
def renderCall (name : String) (operands : List (List Char)) : List Char :=
  name.toList ++ ['('] ++ joinOperands operands ++ [')']

/-- The template of each instruction with its operands filled in (45_disassembler R114, R115, R116). -/
def renderInstr (i : Instr) : List Char :=
  match i with
  | .halt => "HALT".toList
  | .ld ra lit rc => renderCall "LD" [renderReg ra, renderLit lit, renderReg rc]
  | .st rc lit ra => renderCall "ST" [renderReg rc, renderLit lit, renderReg ra]
  | .jmp ra rc => renderCall "JMP" [renderReg ra, renderReg rc]
  | .beq ra lit rc => renderCall "BEQ" [renderReg ra, renderLit lit, renderReg rc]
  | .bne ra lit rc => renderCall "BNE" [renderReg ra, renderLit lit, renderReg rc]
  | .ldr lit rc => renderCall "LDR" [renderLit lit, renderReg rc]
  | .add ra rb rc => renderCall "ADD" [renderReg ra, renderReg rb, renderReg rc]
  | .sub ra rb rc => renderCall "SUB" [renderReg ra, renderReg rb, renderReg rc]
  | .mul ra rb rc => renderCall "MUL" [renderReg ra, renderReg rb, renderReg rc]
  | .div ra rb rc => renderCall "DIV" [renderReg ra, renderReg rb, renderReg rc]
  | .cmpeq ra rb rc => renderCall "CMPEQ" [renderReg ra, renderReg rb, renderReg rc]
  | .cmplt ra rb rc => renderCall "CMPLT" [renderReg ra, renderReg rb, renderReg rc]
  | .cmple ra rb rc => renderCall "CMPLE" [renderReg ra, renderReg rb, renderReg rc]
  | .and ra rb rc => renderCall "AND" [renderReg ra, renderReg rb, renderReg rc]
  | .or ra rb rc => renderCall "OR" [renderReg ra, renderReg rb, renderReg rc]
  | .xor ra rb rc => renderCall "XOR" [renderReg ra, renderReg rb, renderReg rc]
  | .shl ra rb rc => renderCall "SHL" [renderReg ra, renderReg rb, renderReg rc]
  | .shr ra rb rc => renderCall "SHR" [renderReg ra, renderReg rb, renderReg rc]
  | .sra ra rb rc => renderCall "SRA" [renderReg ra, renderReg rb, renderReg rc]
  | .addc ra lit rc => renderCall "ADDC" [renderReg ra, renderLit lit, renderReg rc]
  | .subc ra lit rc => renderCall "SUBC" [renderReg ra, renderLit lit, renderReg rc]
  | .mulc ra lit rc => renderCall "MULC" [renderReg ra, renderLit lit, renderReg rc]
  | .divc ra lit rc => renderCall "DIVC" [renderReg ra, renderLit lit, renderReg rc]
  | .cmpeqc ra lit rc => renderCall "CMPEQC" [renderReg ra, renderLit lit, renderReg rc]
  | .cmpltc ra lit rc => renderCall "CMPLTC" [renderReg ra, renderLit lit, renderReg rc]
  | .cmplec ra lit rc => renderCall "CMPLEC" [renderReg ra, renderLit lit, renderReg rc]
  | .andc ra lit rc => renderCall "ANDC" [renderReg ra, renderLit lit, renderReg rc]
  | .orc ra lit rc => renderCall "ORC" [renderReg ra, renderLit lit, renderReg rc]
  | .xorc ra lit rc => renderCall "XORC" [renderReg ra, renderLit lit, renderReg rc]
  | .shlc ra lit rc => renderCall "SHLC" [renderReg ra, renderLit lit, renderReg rc]
  | .shrc ra lit rc => renderCall "SHRC" [renderReg ra, renderLit lit, renderReg rc]
  | .srac ra lit rc => renderCall "SRAC" [renderReg ra, renderLit lit, renderReg rc]

/-- `disassemble(word)`: the text and whether the opcode is known; `INVALID` and failure otherwise (45_disassembler
R111, R117). It takes the decoder's opcode map (D1). -/
def disassembleWith (opc : OpcodeMap) (w : Word) : List Char × Bool :=
  match decodeWordWith opc w with
  | some i => (renderInstr i, true)
  | none => ("INVALID".toList, false)

/-- `disassemble(word)` with the default opcode numbers (log entry 4). -/
def disassemble (w : Word) : List Char × Bool := disassembleWith opcodeNumber w

end Sys2Proof.Machine
end

