-- ==== Sys2Proof/Machine/Interface.lean ====
section
/-!
DEFINITION. The operations through which the block is driven, one atomic action each (00_scope R9), what each returns,
and runs of any interleaving of them (decision D24, log entry 24). The names with `With` take the open parameters (D1,
D19); those without are these at the defaults.
-/
namespace Sys2Proof.Machine

/-- The operations of 00_scope R9. -/
inductive Operation where
  /-- host: `reset(P, V, K)` -/
  | reset (l : Layout)
  /-- host: `load_program(bytes)` -/
  | loadProgram (bytes : List Byte)
  /-- host: `load_handler(bytes)` -/
  | loadHandler (bytes : List Byte)
  /-- engine: `step()` -/
  | step
  /-- event source: `raise_interrupt(type, key_value)` -/
  | raiseInterrupt (ty : IrqType) (key : Word)
  /-- inspector: `read_register(i)` -/
  | readRegister (i : Nat)
  /-- inspector: `read_memory_word(addr)` -/
  | readMemoryWord (addr : Word)
  /-- inspector: `read_pc()` -/
  | readPc
  /-- inspector: `read_halted()` -/
  | readHalted
  /-- inspector: `read_last_accessed()` -/
  | readLastAccessed
  /-- anyone: `disassemble(word)` -/
  | disassemble (w : Word)
  deriving DecidableEq, Repr

/-- The state after an operation. The inspector's operations change nothing of the machine (10_state R23); their reports
are folded into the model's own mark like all others (60_exceptions R121). The disassembler touches no machine and raises
no report (45_disassembler R112). -/
def performWith (p : Params) (o : Operation) (s : State) : Host.Outcome State Fault Refusal :=
  match o with
  | .reset l => resetMachine l
  | .loadProgram bytes => .next (loadProgram s bytes)
  | .loadHandler bytes => .next (loadHandler s bytes)
  | .step => stepWith p s
  | .raiseInterrupt ty key => .next (raiseInterruptWith p s ty key)
  | .readRegister i => .next (recordReports s (readRegister s i).2)
  | .readMemoryWord addr => .next (recordReports s (readMemoryWord s addr).2)
  | .readPc => .next (recordReports s [])
  | .readHalted => .next (recordReports s [])
  | .readLastAccessed => .next (recordReports s [])
  | .disassemble _ => .next s

/-- The state after an operation, at the default parameters. -/
def perform (o : Operation) (s : State) : Host.Outcome State Fault Refusal := performWith defaultParams o s

/-- What an operation hands back beside its reports. -/
inductive Response where
  | none
  | word (w : Word)
  | bool (b : Bool)
  | text (t : List Char) (success : Bool)
  deriving DecidableEq, Repr

/-- What the inspector and the disassembler return, with the reports of 10_state R23; the other operations return
nothing. The next state's `reports` holds the reports of every operation on the machine. -/
def respondWith (p : Params) (o : Operation) (s : State) : Response × List Report :=
  match o with
  | .reset _ => (.none, [])
  | .loadProgram _ => (.none, [])
  | .loadHandler _ => (.none, [])
  | .step => (.none, [])
  | .raiseInterrupt _ _ => (.none, [])
  | .readRegister i => (.word (readRegister s i).1, (readRegister s i).2)
  | .readMemoryWord addr => (.word (readMemoryWord s addr).1, (readMemoryWord s addr).2)
  | .readPc => (.word s.pc, [])
  | .readHalted => (.bool s.halted, [])
  | .readLastAccessed => (.word s.laa, [])
  | .disassemble w => (.text (disassembleWith p.opc w).1 (disassembleWith p.opc w).2, [])

/-- What an operation returns, at the default parameters. -/
def respond (o : Operation) (s : State) : Response × List Report := respondWith defaultParams o s

/-- A run: operations of any agents in any order, stopping at the first fault or refusal. -/
def performAllWith (p : Params) : List Operation → State → Host.Outcome State Fault Refusal
  | [], s => .next s
  | o :: os, s =>
    match performWith p o s with
    | .next t => performAllWith p os t
    | .fault r => .fault r
    | .refused r => .refused r

/-- A run at the default parameters. -/
def performAll (os : List Operation) (s : State) : Host.Outcome State Fault Refusal :=
  performAllWith defaultParams os s

end Sys2Proof.Machine
end

