-- ==== Sys2Proof/Safety.lean ====
section
/-!
DEFINITION. The terms claims use: the machine's invariant, what a safe run and the end of a run are, and the frame
vocabulary (what an operation leaves unchanged).
-/
namespace Sys2Proof.Machine

/-- What holds after reset and is kept by every operation: the layout meets 00_scope R6; memory is in its canonical form
and lists only addresses that exist (20_memory R25); `lpl` is in `0 .. P` (10_state R18); `pc` is a multiple of 4
(10_state R14); an operation that reported has set the sticky mark (D26). -/
structure State.Inv (s : State) : Prop where
  layout_wf : s.layout.wf = true
  mem_wf : s.mem.wf = true
  mem_below : s.mem.below s.layout.memSize = true
  lpl_le : s.lpl ≤ s.layout.progSize
  pc_aligned : s.pc.toNat % 4 = 0
  reports_marked : s.reports ≠ [] → s.faulted = true

/-- A run of operations during which no report was raised: two of the reports stand for behaviour that is undefined in
the reference (60_exceptions R121, R124, R126; U1, U2) and one for a stuck machine (R125), so only what happens on such
a run is to be trusted. Every operation counts, a read accessor too (R121: "every report"). -/
def SafeRunWith (p : Params) : List Operation → State → Prop
  | [], s => s.faulted = false
  | o :: os, s => s.faulted = false ∧ ∃ t, performWith p o s = .next t ∧ SafeRunWith p os t

/-- A safe run at the default parameters. -/
def SafeRun (os : List Operation) (s : State) : Prop := SafeRunWith defaultParams os s

/-- The end of a run: halted with no report ever raised since reset, by a step or by any other operation (70_reset R151).
It does not cover an interrupt delivered after the halt (60_exceptions R145), the driver deciding to stop stepping early,
or the driver's own "still running" test. -/
def State.Ended (s : State) : Prop := s.halted = true ∧ s.faulted = false

/-! ### Frame vocabulary -/

/-- Every byte of memory reads as before. -/
def SameMemory (s t : State) : Prop := ∀ a, t.mem.readByte a = s.mem.readByte a

/-- Every register slot, the dead one included, is as before. -/
def SameSlots (s t : State) : Prop := ∀ i, t.slot i = s.slot i

/-- The flags `halted` and `iis`, `lpl` and the region sizes are as before. -/
def SameControl (s t : State) : Prop :=
  t.halted = s.halted ∧ t.iis = s.iis ∧ t.lpl = s.lpl ∧ t.layout = s.layout

/-- No report was added and the sticky mark is as before. -/
def SameReports (s t : State) : Prop := t.reports = s.reports ∧ t.faulted = s.faulted

/-- One report was added, and with it the sticky mark. -/
def Reported (s t : State) (r : Report) : Prop := t.reports = s.reports ++ [r] ∧ t.faulted = true

/-- Slot `rc` holds `v` and no other slot changed (10_state R12); through the read port, index 31 still reads 0
(10_state R11), so a write to it is never read back. -/
def SlotWritten (s t : State) (rc : RegIdx) (v : Word) : Prop :=
  (∀ i, t.slot i = if i = rc then v else s.slot i) ∧
  (∀ i, readReg t i = if i = 31 then 0 else if i = rc then v else readReg s i)

/-- Byte `b` of a memory whose bytes were `old`, once the four bytes from `a` hold `v`, least significant first
(20_memory R33). -/
def overlayWord (a : Nat) (v : Word) (old : Nat → Byte) (b : Nat) : Byte :=
  if b = a then v.extractLsb' 0 8
  else if b = a + 1 then v.extractLsb' 8 8
  else if b = a + 2 then v.extractLsb' 16 8
  else if b = a + 3 then v.extractLsb' 24 8
  else old b

/-- The four bytes from `a` hold `v`, and every other byte reads as before (20_memory R33). -/
def WordStored (s t : State) (a : Nat) (v : Word) : Prop :=
  ∀ b, t.mem.readByte b = overlayWord a v s.mem.readByte b

/-- Word `v` is what a read at `a` yields: byte `k` of it is byte `a + k` of the array, or 0 past the array's end
(20_memory R29 to R32). -/
def ReadsAs (s : State) (a : Nat) (v : Word) : Prop :=
  ∀ k, k < 4 → v.extractLsb' (8 * k) 8 = if a + k < s.layout.memSize then s.mem.readByte (a + k) else 0

/-- The whole effect of a completed ALU instruction: `Rc` and `pc`, nothing else (43_alu_register R79,
44_alu_literal R96). -/
def AluDone (s t : State) (rc : RegIdx) (v : Word) : Prop :=
  SlotWritten s t rc v ∧ t.pc = s.pc + 4 ∧ t.laa = s.laa ∧ SameControl s t ∧ SameMemory s t ∧ SameReports s t

/-- The whole effect of a load from `a` into `Rc` (20_memory R30 to R32, 41_load_store R69): in range and tail reads
record `laa`, an out-of-range one reports and yields 0. -/
def LoadDone (s t : State) (a : Word) (rc : RegIdx) : Prop :=
  (∃ v, ReadsAs s a.toNat v ∧ SlotWritten s t rc v) ∧ t.pc = s.pc + 4 ∧ SameControl s t ∧ SameMemory s t ∧
  (a.toNat < s.layout.memSize → t.laa = a ∧ SameReports s t) ∧
  (s.layout.memSize ≤ a.toNat → t.laa = s.laa ∧ Reported s t (.outOfRangeRead a))

/-- The whole effect of a store of `v` at `a` (20_memory R33, R34, 41_load_store R70): in range four bytes and `laa`,
otherwise nothing but the report; `pc` advances either way. -/
def StoreDone (s t : State) (a : Word) (v : Word) : Prop :=
  SameSlots s t ∧ t.pc = s.pc + 4 ∧ SameControl s t ∧
  (a.toNat + 4 ≤ s.layout.memSize → WordStored s t a.toNat v ∧ t.laa = a ∧ SameReports s t) ∧
  (s.layout.memSize < a.toNat + 4 → SameMemory s t ∧ t.laa = s.laa ∧ Reported s t (.outOfRangeWrite a))

/-- The whole effect of a division by zero (43_alu_register R83, 60_exceptions R126). -/
def DivideByZeroDone (s t : State) : Prop :=
  t.halted = true ∧ t.pc = s.pc ∧ t.laa = s.laa ∧ t.iis = s.iis ∧ t.lpl = s.lpl ∧ t.layout = s.layout ∧
  SameSlots s t ∧ SameMemory s t ∧ Reported s t .divideByZero

/-- `q` is the quotient of `a` by a non-zero `b` as 43_alu_register R93 gives it: the magnitude is the quotient of the
magnitudes, the sign that of the exact quotient; -2^31 by -1 gives the wrapped 0x80000000 (decision D12). -/
def IsQuotient (a b : Int) (q : Word) : Prop :=
  (¬ (a = -2 ^ 31 ∧ b = -1) →
    q.toInt.natAbs = a.natAbs / b.natAbs ∧ (0 ≤ a * b → 0 ≤ q.toInt) ∧ (a * b ≤ 0 → q.toInt ≤ 0)) ∧
  (a = -2 ^ 31 → b = -1 → q = 0x80000000)

/-- What JMP, BEQ and BNE do beside the `pc`: the link in `Rc`, and nothing else (42_control_transfer R74). -/
def LinkDone (s t : State) (rc : RegIdx) : Prop :=
  SlotWritten s t rc (s.pc + 4) ∧ t.laa = s.laa ∧ SameControl s t ∧ SameMemory s t ∧ SameReports s t

/-- What JMP, BEQ and BNE read as `x[Ra]`: the read follows the link write (42_control_transfer R74(b), D16). -/
def afterLink (s : State) (ra rc : RegIdx) : Word :=
  if ra = 31 then 0 else if ra = rc then s.pc + 4 else s.slot ra

/-- `iis` once a step that is not refused has begun: cleared when `pc < P` (40_step_halt R61). -/
def iisAfterBegin (s : State) : Bool := if s.pc.toNat < s.layout.progSize then false else s.iis

/-- Equal in everything an instruction can depend on: all but `X[31]`, `laa`, `lpl` and the model's own fields
(10_state R12, R17, R18, R22). -/
def SameVisible (s t : State) : Prop :=
  t.pc = s.pc ∧ t.halted = s.halted ∧ t.iis = s.iis ∧ t.layout = s.layout ∧ t.mem = s.mem ∧
  ∀ i, i ≠ 31 → t.slot i = s.slot i

end Sys2Proof.Machine
end

