-- ==== Sys2Proof/Certificates/Slice0/Obligations.lean ====
section
/-!
DEFINITION. The statements for the provers. A docstring names the rules of spec/ a statement follows; where a clause
rests on a decision D<n> of the spec (its own choice, not the source's) or on a log entry, it says so.
-/

open Sys2Proof Sys2Proof.Machine

/-! ### Encoding -/

/-- Decode inverts encode for every instruction and every operand value, under EVERY one-to-one opcode map (the map is
a parameter, 30_encoding R53, D1), and on the machine's own bytes with anything after them. The machine's own numbers
are D1's (log entry 4). -/
def Obligations.DecodeInvertsEncode : Prop :=
  (∀ opc : OpcodeMap, (∀ m n, opc m = opc n → m = n) → ∀ i, decodeWordWith opc (encodeWith opc i) = some i) ∧
  (∀ (i : Instr) (rest : List Byte), decode (encodeBytes i ++ rest) = .ok (i, rest))

/-- Encoding what a word decodes to gives the word back with its unused bits cleared (30_encoding R50, D29; R57). That
unused bits are ignored is log entry 22; the numbers are D1's (log entry 4). -/
def Obligations.EncodeOfDecodedKeepsUsedBits : Prop :=
  ∀ w i, decodeWord w = some i → encode i = w &&& usedBits i.mnemonic

/-- Bits an instruction does not use are ignored (30_encoding R50, D29): a word that agrees with a decoded one on the
used bits decodes to the same instruction. D29 is log entry 22; the numbers are D1's (log entry 4). -/
def Obligations.UnusedBitsAreIgnored : Prop :=
  ∀ w v i, decodeWord w = some i → w &&& usedBits i.mnemonic = v &&& usedBits i.mnemonic → decodeWord v = some i

/-- Exactly the 31 opcode values of 30_encoding R54 select no instruction (the numbers are D1's). D1 is log entry 4.
-/
def Obligations.InvalidOpcodesAreTheUnassigned : Prop :=
  ∀ w : Word, decodeWord w = none ↔
    (1 ≤ (w.extractLsb' 26 6).toNat ∧ (w.extractLsb' 26 6).toNat ≤ 0x17) ∨
    (w.extractLsb' 26 6).toNat ∈ [0x1A, 0x1E, 0x27, 0x2B, 0x2F, 0x37, 0x3B, 0x3F]

/-- Words written out from the encodings of 30_encoding R46, R53 decode to what they stand for. The numbers are D1's
(log entry 4). -/
def Obligations.SampleWordsDecode : Prop :=
  decodeWord 0b000000_00000_00000_00000_00000000000 = some .halt ∧
  decodeWord 0b011000_00010_00001_0000000000000100 = some (.ld 1 4 2) ∧
  decodeWord 0b011001_00010_11111_0000000100000000 = some (.st 2 256 31) ∧
  decodeWord 0b011011_11111_11100_0000000000000000 = some (.jmp 28 31) ∧
  decodeWord 0b011101_11111_00001_1111111111111101 = some (.bne 1 (-3) 31) ∧
  decodeWord 0b011111_00001_00000_0000000000000111 = some (.ldr 7 1) ∧
  decodeWord 0b100000_00011_00001_00010_00000000000 = some (.add 1 2 3) ∧
  decodeWord 0b111110_00011_00001_0000000000000100 = some (.srac 1 4 3) ∧
  decodeWord 0b101011_00011_00001_00010_00000000000 = none

/-- The literal is sign-extended: with bit 15 set it is the field OR'd with 0xFFFF0000, with bit 15 clear the field
itself; extracting it again from the extended value changes nothing; as a number it is the field's signed value
(30_encoding R48, its first part). -/
def Obligations.LiteralIsSignExtended : Prop :=
  ∀ lit : Lit,
    (lit.getLsbD 15 = true → sext16 lit = lit.setWidth 32 ||| 0xFFFF0000) ∧
    (lit.getLsbD 15 = false → sext16 lit = lit.setWidth 32) ∧
    sext16 ((sext16 lit).extractLsb' 0 16) = sext16 lit ∧
    (sext16 lit).toInt = lit.toInt

/-- The disassembler succeeds exactly on the words the decoder knows; on the others it gives INVALID; it shows no
ignored bit (45_disassembler R117, R118, R119). That unused bits are ignored is decision D29 (log entry 22); the
numbers are D1's (log entry 4). -/
def Obligations.DisassemblerAgreesWithDecoder : Prop :=
  ∀ w : Word,
    ((disassemble w).2 = true ↔ ∃ i, decodeWord w = some i) ∧
    (decodeWord w = none → disassemble w = (['I', 'N', 'V', 'A', 'L', 'I', 'D'], false)) ∧
    (∀ i, decodeWord w = some i → disassemble w = disassemble (encode i))

/-- The text shows every operand: two instructions with the same text are the same instruction (45_disassembler R113
to R116, R119; the spelling is decision D25). D25 is log entry 23. -/
def Obligations.RenderedTextDeterminesInstruction : Prop :=
  ∀ i j : Instr, renderInstr i = renderInstr j → i = j

/-! ### Registers and memory -/

/-- 10_state R11: index 0 to 30 reads the stored word, index 31 reads 0 whatever was last written there, and the
accessor reads through the same rule. -/
def Obligations.RegisterReadPort : Prop :=
  ∀ s : State,
    (∀ i, i ≠ 31 → readReg s i = s.slot i) ∧
    (∀ v, readReg (writeReg s 31 v) 31 = 0) ∧
    readReg s 31 = 0 ∧
    (∀ i : RegIdx, readRegister s i.toNat = (readReg s i, []))

/-- 20_memory R30: a read in range gives the four bytes, the first lowest, records `laa`, does nothing else, and
repeats. -/
def Obligations.ReadInRange : Prop :=
  ∀ (s : State) (a : Word), a.toNat + 4 ≤ s.layout.memSize →
    (memRead s a).1 = s.mem.readByte (a.toNat + 3) ++ s.mem.readByte (a.toNat + 2)
      ++ s.mem.readByte (a.toNat + 1) ++ s.mem.readByte a.toNat ∧
    (memRead s a).2 = { s with laa := a } ∧
    (memRead (memRead s a).2 a).1 = (memRead s a).1

/-- A read near or past the end (20_memory R31, R32; the report and `laa` are decision D8): a tail read gives the
available bytes with zeros above and records `laa`; an out-of-range one gives 0, reports, and leaves `laa`. D8 is log
entry 20. -/
def Obligations.ReadAtAndPastTheEnd : Prop :=
  ∀ (s : State) (a : Word),
    (a.toNat < s.layout.memSize → s.layout.memSize < a.toNat + 4 →
      (∀ k, k < 4 → (memRead s a).1.extractLsb' (8 * k) 8 =
        if a.toNat + k < s.layout.memSize then s.mem.readByte (a.toNat + k) else 0) ∧
      (memRead s a).2 = { s with laa := a }) ∧
    (s.layout.memSize ≤ a.toNat →
      (memRead s a).1 = 0 ∧
      (memRead s a).2 = { s with reports := s.reports ++ [.outOfRangeRead a], faulted := true })

/-- 20_memory R33: a write in range stores the four bytes, least significant first, records `laa`, and changes no other
byte and nothing else. The byte order of writes is derived in R29 and DEDUCED here (log entry 29). -/
def Obligations.WriteInRange : Prop :=
  ∀ (s : State) (a v : Word), a.toNat + 4 ≤ s.layout.memSize →
    WordStored s (memWrite s a v) a.toNat v ∧ (memWrite s a v).laa = a ∧
    (memWrite s a v).pc = s.pc ∧ SameSlots s (memWrite s a v) ∧ SameControl s (memWrite s a v) ∧
    SameReports s (memWrite s a v)

/-- A write whose four bytes do not all exist writes none, leaves `laa` and reports (20_memory R34, decision D7). D7
is log entry 6. -/
def Obligations.WriteOutOfRange : Prop :=
  ∀ (s : State) (a v : Word), s.layout.memSize < a.toNat + 4 →
    memWrite s a v = { s with reports := s.reports ++ [.outOfRangeWrite a], faulted := true }

/-- The laws of 20_memory R44: a word written is read back, at any alignment; two overlapping writes mix bytes; a
write out of range leaves memory as it was. The byte order of writes is DEDUCED (R29; log entry 29); the write out of
range is decision D7 (log entry 6). -/
def Obligations.WriteThenRead : Prop :=
  (∀ (s : State) (a v : Word), a.toNat + 4 ≤ s.layout.memSize →
    (memRead (memWrite s a v) a).1 = v ∧ (memRead (memWrite s a v) a).2.laa = a) ∧
  (∀ (s : State) (a v u : Word), a.toNat + 5 ≤ s.layout.memSize → s.layout.memSize ≤ 2 ^ 31 →
    (memRead (memWrite (memWrite s a v) (a + 1) u) a).1 = u.extractLsb' 0 24 ++ v.extractLsb' 0 8) ∧
  (∀ (s : State) (a v : Word), s.layout.memSize < a.toNat + 4 → (memWrite s a v).mem = s.mem)

/-- An instruction fetch gives the value and the report of a read in every case and never changes `laa`; the memory
accessor gives the same value and report (20_memory R35, 10_state R23; decision D9). D9 is log entries 20 and 30. -/
def Obligations.FetchReadsWithoutRecording : Prop :=
  ∀ (s : State) (a : Word),
    (fetchWord s a).1 = (memRead s a).1 ∧ (fetchWord s a).2.reports = (memRead s a).2.reports ∧
    (fetchWord s a).2 = { (memRead s a).2 with laa := s.laa } ∧
    (readMemoryWord s a).1 = (memRead s a).1 ∧ s.reports ++ (readMemoryWord s a).2 = (memRead s a).2.reports

/-! ### HALT and the ALU -/

/-- 40_step_halt R65: HALT sets `halted` and changes nothing else; every word whose opcode field is 0 is HALT,
whatever its other bits; every later step changes nothing. That the other bits are ignored is decision D29 (R50; log
entry 22); that a later step is a no-op is decision D17 (R60; log entry 18). -/
def Obligations.HaltHalts : Prop :=
  (∀ s : State, ∃ t, exec .halt s = .next t ∧ t.halted = true ∧ t.pc = s.pc ∧ SameSlots s t ∧ SameMemory s t ∧
    t.iis = s.iis ∧ t.laa = s.laa ∧ t.lpl = s.lpl ∧ t.layout = s.layout ∧ SameReports s t ∧
    step t = .next { t with reports := [] }) ∧
  (∀ w : Word, w.extractLsb' 26 6 = 0b000000 → decodeWord w = some .halt) ∧
  encode .halt = 0x00000000

/-- ADD, SUB and MUL narrow the exact integer result to 32 bits and write nothing but `Rc` and `pc` (43_alu_register
R79 to R82, R95). `pc + 4` is modulo 2^32 (D3, log entry 14) and slot 31 stores (D30, log entry 21). -/
def Obligations.RegisterArithmetic : Prop :=
  ∀ (s : State) (ra rb rc : RegIdx),
    (∃ t, exec (.add ra rb rc) s = .next t ∧
      AluDone s t rc (trunc32 ((readReg s ra).toInt + (readReg s rb).toInt))) ∧
    (∃ t, exec (.sub ra rb rc) s = .next t ∧
      AluDone s t rc (trunc32 ((readReg s ra).toInt - (readReg s rb).toInt))) ∧
    (∃ t, exec (.mul ra rb rc) s = .next t ∧
      AluDone s t rc (trunc32 ((readReg s ra).toInt * (readReg s rb).toInt)))

/-- CMPEQ, CMPLT and CMPLE write 1 or 0, comparing signed values (43_alu_register R84 to R86; the 1 and 0 and the
signedness are decision D13). D13 is log entry 10. `pc + 4` is modulo 2^32 (D3, log entry 14) and slot 31 stores (D30,
log entry 21). -/
def Obligations.RegisterComparisons : Prop :=
  ∀ (s : State) (ra rb rc : RegIdx),
    (∃ t, exec (.cmpeq ra rb rc) s = .next t ∧
      AluDone s t rc (if (readReg s ra).toInt = (readReg s rb).toInt then 1 else 0)) ∧
    (∃ t, exec (.cmplt ra rb rc) s = .next t ∧
      AluDone s t rc (if (readReg s ra).toInt < (readReg s rb).toInt then 1 else 0)) ∧
    (∃ t, exec (.cmple ra rb rc) s = .next t ∧
      AluDone s t rc (if (readReg s ra).toInt ≤ (readReg s rb).toInt then 1 else 0))

/-- AND, OR and XOR, bit by bit (43_alu_register R87 to R89). `pc + 4` is modulo 2^32 (D3, log entry 14) and slot 31
stores (D30, log entry 21). -/
def Obligations.RegisterLogic : Prop :=
  ∀ (s : State) (ra rb rc : RegIdx),
    (∃ t v, exec (.and ra rb rc) s = .next t ∧ AluDone s t rc v ∧
      ∀ k, v.getLsbD k = ((readReg s ra).getLsbD k && (readReg s rb).getLsbD k)) ∧
    (∃ t v, exec (.or ra rb rc) s = .next t ∧ AluDone s t rc v ∧
      ∀ k, v.getLsbD k = ((readReg s ra).getLsbD k || (readReg s rb).getLsbD k)) ∧
    (∃ t v, exec (.xor ra rb rc) s = .next t ∧ AluDone s t rc v ∧
      ∀ k, v.getLsbD k = ((readReg s ra).getLsbD k != (readReg s rb).getLsbD k))

/-- SHL, SHR and SRA by the low five bits `n` of the second operand: the low 32 bits of `a * 2^n`; the unsigned `a /
2^n` (zero fill, decision D14); the floor of the signed `a / 2^n` (43_alu_register R90 to R92, R94; 90_conflicts C3).
The full sign fill of SRA is DEDUCED (U6; log entry 16); D14 is log entry 11. `pc + 4` is modulo 2^32 (D3, log entry
14) and slot 31 stores (D30, log entry 21). -/
def Obligations.RegisterShifts : Prop :=
  ∀ (s : State) (ra rb rc : RegIdx),
    (∃ t, exec (.shl ra rb rc) s = .next t ∧
      AluDone s t rc (BitVec.ofNat 32 ((readReg s ra).toNat * 2 ^ ((readReg s rb).toNat % 32)))) ∧
    (∃ t, exec (.shr ra rb rc) s = .next t ∧
      AluDone s t rc (BitVec.ofNat 32 ((readReg s ra).toNat / 2 ^ ((readReg s rb).toNat % 32)))) ∧
    (∃ t, exec (.sra ra rb rc) s = .next t ∧
      AluDone s t rc (trunc32 ((readReg s ra).toInt.fdiv (2 ^ ((readReg s rb).toNat % 32)))))

/-- DIV and DIVC. By a non-zero divisor: the magnitude is the quotient of the magnitudes, the sign that of the exact
quotient, and -2^31 by -1 gives 0x80000000 (43_alu_register R93, decision D12). By zero: the report, the halt, `pc`
and `Rc` unchanged (43_alu_register R83, 44_alu_literal R100, 60_exceptions R126; decision D11). D12 is log entry 9
and D11 log entry 7. `pc + 4` is modulo 2^32 (D3, log entry 14) and slot 31 stores (D30, log entry 21). -/
def Obligations.Division : Prop :=
  ∀ (s : State) (ra rb rc : RegIdx) (lit : Lit),
    (readReg s rb ≠ 0 → ∃ t q, exec (.div ra rb rc) s = .next t ∧ AluDone s t rc q ∧
      IsQuotient (readReg s ra).toInt (readReg s rb).toInt q) ∧
    (readReg s rb = 0 → ∃ t, exec (.div ra rb rc) s = .next t ∧ DivideByZeroDone s t) ∧
    (lit ≠ 0 → ∃ t q, exec (.divc ra lit rc) s = .next t ∧ AluDone s t rc q ∧
      IsQuotient (readReg s ra).toInt lit.toInt q) ∧
    (lit = 0 → ∃ t, exec (.divc ra lit rc) s = .next t ∧ DivideByZeroDone s t)

/-- ADDC, SUBC and MULC: the operators of the register forms with the signed literal as SECOND operand (44_alu_literal
R96 to R99). `pc + 4` is modulo 2^32 (D3, log entry 14) and slot 31 stores (D30, log entry 21). -/
def Obligations.LiteralArithmetic : Prop :=
  ∀ (s : State) (ra : RegIdx) (lit : Lit) (rc : RegIdx),
    (∃ t, exec (.addc ra lit rc) s = .next t ∧ AluDone s t rc (trunc32 ((readReg s ra).toInt + lit.toInt))) ∧
    (∃ t, exec (.subc ra lit rc) s = .next t ∧ AluDone s t rc (trunc32 ((readReg s ra).toInt - lit.toInt))) ∧
    (∃ t, exec (.mulc ra lit rc) s = .next t ∧ AluDone s t rc (trunc32 ((readReg s ra).toInt * lit.toInt)))

/-- CMPEQC, CMPLTC and CMPLEC against the signed literal (44_alu_literal R101 to R103; the 1 and 0 and the signedness
are decision D13). D13 is log entry 10. `pc + 4` is modulo 2^32 (D3, log entry 14) and slot 31 stores (D30, log entry
21). -/
def Obligations.LiteralComparisons : Prop :=
  ∀ (s : State) (ra : RegIdx) (lit : Lit) (rc : RegIdx),
    (∃ t, exec (.cmpeqc ra lit rc) s = .next t ∧
      AluDone s t rc (if (readReg s ra).toInt = lit.toInt then 1 else 0)) ∧
    (∃ t, exec (.cmpltc ra lit rc) s = .next t ∧
      AluDone s t rc (if (readReg s ra).toInt < lit.toInt then 1 else 0)) ∧
    (∃ t, exec (.cmplec ra lit rc) s = .next t ∧
      AluDone s t rc (if (readReg s ra).toInt ≤ lit.toInt then 1 else 0))

/-- ANDC, ORC and XORC, bit by bit, with bit 15 of the literal repeated above it (44_alu_literal R104 to R106). `pc +
4` is modulo 2^32 (D3, log entry 14) and slot 31 stores (D30, log entry 21). -/
def Obligations.LiteralLogic : Prop :=
  ∀ (s : State) (ra : RegIdx) (lit : Lit) (rc : RegIdx),
    (∃ t v, exec (.andc ra lit rc) s = .next t ∧ AluDone s t rc v ∧
      ∀ k, k < 32 → v.getLsbD k = ((readReg s ra).getLsbD k && lit.getLsbD (min k 15))) ∧
    (∃ t v, exec (.orc ra lit rc) s = .next t ∧ AluDone s t rc v ∧
      ∀ k, k < 32 → v.getLsbD k = ((readReg s ra).getLsbD k || lit.getLsbD (min k 15))) ∧
    (∃ t v, exec (.xorc ra lit rc) s = .next t ∧ AluDone s t rc v ∧
      ∀ k, k < 32 → v.getLsbD k = ((readReg s ra).getLsbD k != lit.getLsbD (min k 15)))

/-- SHLC, SHRC and SRAC by the low five bits of the literal (44_alu_literal R107 to R109; that a literal count is
masked is decision D15, the zero fill D14). The full sign fill of SRAC, the floor of the signed quotient, is DEDUCED
(43_alu_register R92; 90_conflicts C3; U6; log entry 16); D15 is log entry 12 (90_conflicts C7) and D14 log entry 11.
`pc + 4` is modulo 2^32 (D3, log entry 14) and slot 31 stores (D30, log entry 21). -/
def Obligations.LiteralShifts : Prop :=
  ∀ (s : State) (ra : RegIdx) (lit : Lit) (rc : RegIdx),
    (∃ t, exec (.shlc ra lit rc) s = .next t ∧
      AluDone s t rc (BitVec.ofNat 32 ((readReg s ra).toNat * 2 ^ (lit.toNat % 32)))) ∧
    (∃ t, exec (.shrc ra lit rc) s = .next t ∧
      AluDone s t rc (BitVec.ofNat 32 ((readReg s ra).toNat / 2 ^ (lit.toNat % 32)))) ∧
    (∃ t, exec (.srac ra lit rc) s = .next t ∧
      AluDone s t rc (trunc32 ((readReg s ra).toInt.fdiv (2 ^ (lit.toNat % 32)))))

/-! ### Loads, stores and control transfer -/

/-- LD (41_load_store R69): the word at `x[Ra] + lit`, in range, tail and out of range, goes to `Rc`; no byte of
memory changes (address arithmetic: decision D4; the three cases: D8). D4 is log entry 15 and D8 log entry 20. `pc +
4` is modulo 2^32 (D3, log entry 14) and slot 31 stores (D30, log entry 21). -/
def Obligations.LoadWord : Prop :=
  ∀ (s : State) (ra : RegIdx) (lit : Lit) (rc : RegIdx),
    ∃ t, exec (.ld ra lit rc) s = .next t ∧ LoadDone s t (trunc32 ((readReg s ra).toInt + lit.toInt)) rc

/-- ST (41_load_store R70): `x[Rc]` goes to the four bytes at `x[Ra] + lit`; every other byte and every register is as
before; out of range nothing is stored and the write is reported (decisions D4, D7; byte order: log entry 29). D4 is
log entry 15 and D7 log entry 6; `pc + 4` is modulo 2^32 (D3, log entry 14). -/
def Obligations.StoreWord : Prop :=
  ∀ (s : State) (rc : RegIdx) (lit : Lit) (ra : RegIdx),
    ∃ t, exec (.st rc lit ra) s = .next t ∧
      StoreDone s t (trunc32 ((readReg s ra).toInt + lit.toInt)) (readReg s rc)

/-- LDR (41_load_store R71): a load when the target `pc + 4 + 4*lit` is at or below the kernel base, a store of
`x[Rc]` when it is strictly above it (unsigned, decision D4; 90_conflicts C4; byte order of the store: log entry 29).
D4 is log entry 15 and C4 log entry 28; out of range and at the tail, D8 and D7 (log entries 20, 6). `pc + 4` is
modulo 2^32 (D3, log entry 14) and slot 31 stores (D30, log entry 21). -/
def Obligations.LoadRelativeOrStore : Prop :=
  ∀ (s : State) (lit : Lit) (rc : RegIdx),
    let target := trunc32 ((s.pc.toNat : Int) + 4 + 4 * lit.toInt)
    (target.toNat ≤ s.layout.progSize + s.layout.vidSize →
      ∃ t, exec (.ldr lit rc) s = .next t ∧ LoadDone s t target rc) ∧
    (s.layout.progSize + s.layout.vidSize < target.toNat →
      ∃ t, exec (.ldr lit rc) s = .next t ∧ StoreDone s t target (readReg s rc))

/-- JMP (42_control_transfer R74, R75): the link in `Rc`, then `pc` is `x[Ra]`, read after the link write (decision
D16), with bits 1..0 cleared. D16 is log entry 13. `pc + 4` is modulo 2^32 (D3, log entry 14) and slot 31 stores (D30,
log entry 21). -/
def Obligations.JumpLinksThenJumps : Prop :=
  ∀ (s : State) (ra rc : RegIdx),
    ∃ t, exec (.jmp ra rc) s = .next t ∧ LinkDone s t rc ∧ t.pc.toNat = 4 * ((afterLink s ra rc).toNat / 4)

/-- BEQ and BNE (42_control_transfer R74, R76, R77): the link in `Rc` whether or not the branch is taken; the test is
of `x[Ra]` after the link write (decision D16). D16 is log entry 13. `pc + 4` is modulo 2^32 (D3, log entry 14) and
slot 31 stores (D30, log entry 21). -/
def Obligations.BranchesLinkThenTest : Prop :=
  ∀ (s : State) (ra : RegIdx) (lit : Lit) (rc : RegIdx),
    (∃ t, exec (.beq ra lit rc) s = .next t ∧ LinkDone s t rc ∧
      (afterLink s ra rc = 0 → t.pc = trunc32 ((s.pc.toNat : Int) + 4 + 4 * lit.toInt)) ∧
      (afterLink s ra rc ≠ 0 → t.pc = s.pc + 4)) ∧
    (∃ t, exec (.bne ra lit rc) s = .next t ∧ LinkDone s t rc ∧
      (afterLink s ra rc ≠ 0 → t.pc = trunc32 ((s.pc.toNat : Int) + 4 + 4 * lit.toInt)) ∧
      (afterLink s ra rc = 0 → t.pc = s.pc + 4))

/-- A store is seen by the very next fetch (20_memory R40): after an ST to the address of the next instruction, the
next step runs the instruction that was stored (a stored word that is no instruction: InvalidOpcodeStalls). The numbers
are D1's (log entry 4), the byte order of the store is DEDUCED (R29; log entry 29), that the fetch leaves `laa` is
decision D9 (log entry 20), and `pc + 4` is modulo 2^32 (D3, log entry 14). -/
def Obligations.StoreIsSeenByTheNextFetch : Prop :=
  ∀ (s t : State) (rc : RegIdx) (lit : Lit) (ra : RegIdx) (j : Instr),
    exec (.st rc lit ra) s = .next t → baseOffset s ra lit = s.pc + 4 →
    (s.pc + 4).toNat + 4 ≤ s.layout.memSize → (s.pc + 4).toNat % 4 = 0 → s.halted = false →
    decodeWord (readReg s rc) = some j →
    step t = exec j { t with reports := [], iis := iisAfterBegin t }

/-! ### The step -/

/-- A step runs the instruction that the bytes at `pc` decode to, on the state in which the report set is empty and
`iis` is cleared if `pc < P` (40_step_halt R59, R61 to R63). That the fetch leaves `laa` is decision D9 (log entry
20). -/
def Obligations.StepRunsTheDecodedInstruction : Prop :=
  ∀ (s : State) (i : Instr) (rest : List Byte),
    s.halted = false → s.pc.toNat % 4 = 0 → s.pc.toNat + 4 ≤ s.layout.memSize →
    decode [s.mem.readByte s.pc.toNat, s.mem.readByte (s.pc.toNat + 1), s.mem.readByte (s.pc.toNat + 2),
      s.mem.readByte (s.pc.toNat + 3)] = .ok (i, rest) →
    step s = exec i { s with reports := [], iis := iisAfterBegin s }

/-- `Halted` is terminal: any number of steps changes nothing and reports nothing (40_step_halt R60, decision D17),
and no operation of any agent but reset leaves it (10_state R15, 60_exceptions R143, R145). That an interrupt on a
halted machine leaves it halted is decision D18; D17 and D18 are log entry 18. -/
def Obligations.HaltedIsTerminal : Prop :=
  ∀ s : State, s.halted = true →
    (∀ n, Host.Core.run Sys2Proof.core (n + 1) s = Host.Outcome.next ({ s with reports := [] } : State)) ∧
    (∀ os t, (∀ o ∈ os, ∀ l, o ≠ Operation.reset l) → performAll os s = .next t → t.halted = true)

/-- An invalid opcode is reported and stalls: nothing changes (but what R61 clears), and every later step gives the
same state again (40_step_halt R66, 60_exceptions R125, 70_reset R158; decision D10). D10 is log entry 8; that the
fetch leaves `laa` is decision D9 (log entry 20). -/
def Obligations.InvalidOpcodeStalls : Prop :=
  ∀ s : State, s.halted = false → s.pc.toNat % 4 = 0 → decodeWord (fetchWord s s.pc).1 = none →
    ∃ t, step s = .next t ∧ step t = .next t ∧ t.pc = s.pc ∧ t.halted = false ∧ SameSlots s t ∧ SameMemory s t ∧
      t.laa = s.laa ∧ t.lpl = s.lpl ∧ t.layout = s.layout ∧ t.iis = iisAfterBegin s ∧
      t.reports = [.invalidOpcode (fetchWord s s.pc).1] ∧ t.faulted = true

/-- A fetch beyond memory reports, yields the word 0, which is HALT, and so halts the machine with `pc` unchanged
(40_step_halt R67). The report and the value are those of a read, `laa` stays (decisions D8, D9; log entry 20). -/
def Obligations.FetchBeyondMemoryHalts : Prop :=
  ∀ s : State, s.halted = false → s.pc.toNat % 4 = 0 → s.layout.memSize ≤ s.pc.toNat →
    ∃ t, step s = .next t ∧ t.halted = true ∧ t.pc = s.pc ∧ SameSlots s t ∧ SameMemory s t ∧
      t.laa = s.laa ∧ t.lpl = s.lpl ∧ t.layout = s.layout ∧ t.iis = iisAfterBegin s ∧
      t.reports = [.outOfRangeRead s.pc] ∧ t.faulted = true

/-- The model's choice (log entry 17; 93_implementation_defined U5): a step at a `pc` that is not a multiple of 4
faults. -/
def Obligations.MisalignedPcFaults : Prop :=
  ∀ s : State, s.halted = false → s.pc.toNat % 4 ≠ 0 → step s = .fault (.misalignedPc s.pc)

/-- 40_step_halt R61: a step that is not refused clears `iis` when `pc < P` and leaves it otherwise, whatever the word at
`pc`, an invalid opcode included. -/
def Obligations.StepClearsInServiceBelowProgramEnd : Prop :=
  ∀ s t : State, s.halted = false → step s = .next t →
    (s.pc.toNat < s.layout.progSize → t.iis = false) ∧ (s.layout.progSize ≤ s.pc.toNat → t.iis = s.iis)

/-- The region sizes change only by reset, and the loaded length only by reset and `load_program` (10_state R18, R19).
That `load_handler` leaves the length is decision D23 (log entry 20). -/
def Obligations.SizesAndLengthAreFixed : Prop :=
  ∀ (o : Operation) (s t : State), perform o s = .next t → (∀ l, o ≠ .reset l) →
    t.layout = s.layout ∧ ((∀ bytes, o ≠ .loadProgram bytes) → t.lpl = s.lpl)

/-- What halts the machine (10_state R15, 90_conflicts C12; decision D11): a step of a running machine halts it
exactly when the fetched word is HALT (as it is for a fetch beyond memory) or a DIV or DIVC by zero. D11 is log entry
7. -/
def Obligations.OnlyHaltAndDivideByZeroHalt : Prop :=
  ∀ s t : State, s.halted = false → step s = .next t →
    (t.halted = true ↔
      decodeWord (fetchWord s s.pc).1 = some .halt ∨
      (∃ ra rb rc, decodeWord (fetchWord s s.pc).1 = some (.div ra rb rc) ∧ readReg s rb = 0) ∨
      (∃ ra rc, decodeWord (fetchWord s s.pc).1 = some (.divc ra 0 rc)))

/-- A step raises at most one report (60_exceptions R122), and the sticky mark is set exactly by a report (R121,
decision D26; log entry 5). -/
def Obligations.StepReportsAtMostOnce : Prop :=
  ∀ s t : State, step s = .next t →
    t.reports.length ≤ 1 ∧ (t.faulted = true ↔ s.faulted = true ∨ t.reports ≠ [])

/-- The only register a step can write is the one in bits 25..21 of the fetched word (10_state R12, 30_encoding R46). -/
def Obligations.StepWritesOnlyTheRcRegister : Prop :=
  ∀ s t : State, step s = .next t →
    ∀ r : RegIdx, r ≠ (fetchWord s s.pc).1.extractLsb' 21 5 → t.slot r = s.slot r

/-- Only ST, and LDR with a target above the kernel base, can change memory (41_load_store R70, R71). The comparison
is unsigned (decision D4; log entry 15) and strict (90_conflicts C4; log entry 28). -/
def Obligations.OnlyStoresChangeMemory : Prop :=
  ∀ s t : State, step s = .next t →
    (∀ rc lit ra, decodeWord (fetchWord s s.pc).1 ≠ some (.st rc lit ra)) →
    (∀ lit rc, decodeWord (fetchWord s s.pc).1 = some (.ldr lit rc) →
      (trunc32 ((s.pc.toNat : Int) + 4 + 4 * lit.toInt)).toNat ≤ s.layout.progSize + s.layout.vidSize) →
    SameMemory s t

/-- HEADLINE. Every step keeps the invariant: the layout well formed, memory canonical and inside the array, `lpl` in
`0 .. P`, `pc` a multiple of 4 (10_state R14), reports marked. What a well-formed layout is, is decision D2 (log entry
17); the mark is D26's (log entry 5). -/
def Obligations.StepKeepsInv : Prop :=
  ∀ s t : State, s.Inv → step s = .next t → t.Inv

/-- The reset state meets the invariant, for every layout that 00_scope R6 calls well formed, and so does
`State.reset` (whose layout is the model's choice, log entry 1). The reset values are decisions D5, D6 (log entries 2,
3), well-formedness D2 (log entry 17). -/
def Obligations.ResetMeetsInv : Prop :=
  (∀ l : Layout, l.wf = true → (State.resetWith l).Inv) ∧ State.reset.Inv

/-- HEADLINE. From a state that meets the invariant, every interleaving of operations of all agents (00_scope R9)
whose resets ask for well-formed layouts runs to its end without a fault or a refusal, and ends in a state that meets
the invariant (40_step_halt R68, 70_reset R162: each operation terminates). Whole operations in any order are decision
D24 (log entry 24), well-formedness D2 (log entry 17), an operation on a halted machine D17, D18 (log entry 18). -/
def Obligations.EveryInterleavingRunsOn : Prop :=
  ∀ (os : List Operation) (s : State), s.Inv → (∀ l, Operation.reset l ∈ os → l.wf = true) →
    ∃ t, performAll os s = .next t ∧ t.Inv

/-- HEADLINE. No step depends on what no instruction reads: from two states that differ only in the dead slot X[31],
`laa`, `lpl` and the model's own fields, a step gives the same reports and states that differ only there, or the same
fault (10_state R12, R17, R18, R22). That slot 31 stores is decision D30 (log entry 21), that a step ignores `lpl` D28
(log entry 26), and the fault is log entry 17. -/
def Obligations.UnreadStateDoesNotInfluenceAStep : Prop :=
  ∀ s s' : State, SameVisible s s' →
    (∀ t, step s = .next t → ∃ t', step s' = .next t' ∧ SameVisible t t' ∧ t'.reports = t.reports) ∧
    (∀ f, step s = .fault f → step s' = .fault f)

/-- `reset(P,V,K)` (70_reset R146, 10_state R24; register, `iis`, `laa`, `lpl` and memory values by decisions D5, D6):
a fresh machine for a well-formed layout (00_scope R6, decision D2), a refusal otherwise. D5, D6 and D2 are log
entries 2, 3 and 17. -/
def Obligations.ResetGivesAFreshMachine : Prop :=
  ∀ l : Layout,
    (l.wf = true ↔ l.progSize % 4 = 0 ∧ l.vidSize % 4 = 0 ∧ l.kernSize % 4 = 0 ∧ 400 ≤ l.kernSize ∧
      l.progSize + l.vidSize + l.kernSize ≤ 2147483648) ∧
    (l.wf = true → ∃ t, resetMachine l = .next t ∧ t.pc = 0 ∧ t.halted = false ∧ t.iis = false ∧ (∀ i, t.slot i = 0) ∧
      t.laa = 0 ∧ t.lpl = 0 ∧ t.layout = l ∧ (∀ a, t.mem.readByte a = 0) ∧ t.reports = [] ∧ t.faulted = false) ∧
    (l.wf = false → resetMachine l = .refused (.illFormedLayout l))

/-! ### Interrupts -/

/-- 60_exceptions R129: with an interrupt in service a `raise_interrupt` changes nothing; so a second one in a row has
no effect, however often it is repeated. -/
def Obligations.InterruptInServiceIsDropped : Prop :=
  (∀ (s : State) (ty : IrqType) (key : Word), s.iis = true → raiseInterrupt s ty key = { s with reports := [] }) ∧
  (∀ (s : State) (ty : IrqType) (key : Word) (e : IrqType × Word) (more : List (IrqType × Word)),
    performAll ((e :: more).map (fun e => Operation.raiseInterrupt e.1 e.2)) (raiseInterrupt s ty key) =
      .next { raiseInterrupt s ty key with reports := [] })

/-- 60_exceptions R130: delivery sets `iis`, saves `pc` in register 30, enters the handler at `P + V + 400`, sets
register 29 to `lpl + 4`, stores the kernel base at `lpl`, and saves nothing else: every other register, `halted`, `lpl`
and the sizes stay. That a halted machine takes the delivery and stays halted is decision D18 (R145; log entry 18); the
byte order of the stored word is DEDUCED (R29; log entry 29). -/
def Obligations.InterruptSavesAndEnters : Prop :=
  ∀ (s : State) (ty : IrqType) (key : Word), s.Inv → s.iis = false →
    ∃ t, perform (.raiseInterrupt ty key) s = .next t ∧
      t.iis = true ∧ t.slot 30 = s.pc ∧ t.pc.toNat = s.layout.progSize + s.layout.vidSize + 400 ∧
      t.slot 29 = trunc32 ((s.lpl : Int) + 4) ∧
      (∀ k, k < 4 → t.mem.readByte (s.lpl + k) =
        (trunc32 ((s.layout.progSize : Int) + s.layout.vidSize)).extractLsb' (8 * k) 8) ∧
      (∀ i, i ≠ 29 → i ≠ 30 → t.slot i = s.slot i) ∧
      t.halted = s.halted ∧ t.lpl = s.lpl ∧ t.layout = s.layout

/-- Delivery's memory as a whole (60_exceptions R130 to R132; the addresses KB + 52 and KB + 56 are decision D19,
`laa` D22; byte order: log entry 29; on a halted machine too: D18, log entry 18): the sentinel, the type word, and on
key-down the key word; every other byte as before; no report. D19 is log entry 19 and D22 log entry 20. -/
def Obligations.InterruptRecordsTheEvent : Prop :=
  ∀ (s : State) (key : Word), s.Inv → s.iis = false →
    let kb := s.layout.progSize + s.layout.vidSize
    let sentinel := overlayWord s.lpl (BitVec.ofNat 32 kb) s.mem.readByte
    (∃ t, perform (.raiseInterrupt .keyDown key) s = .next t ∧
      (∀ b, t.mem.readByte b = overlayWord (kb + 56) key (overlayWord (kb + 52) 0 sentinel) b) ∧
      t.laa.toNat = kb + 56 ∧ t.reports = [] ∧ t.faulted = s.faulted) ∧
    (∃ t, perform (.raiseInterrupt .keyUp key) s = .next t ∧
      (∀ b, t.mem.readByte b = overlayWord (kb + 52) 1 sentinel b) ∧
      t.laa.toNat = kb + 52 ∧ t.reports = [] ∧ t.faulted = s.faulted)

/-- The gap after a handler's returning jump (60_exceptions R134, R135; 90_conflicts C1): the jump does not clear `iis`,
so an interrupt is still dropped; the next step, if it starts below `P`, clears it. -/
def Obligations.ReturnClearsInServiceAtTheNextStep : Prop :=
  ∀ (s t : State) (rc : RegIdx), s.iis = true → s.halted = false → exec (.jmp 30 rc) s = .next t →
    t.iis = true ∧ (∀ ty key, raiseInterrupt t ty key = { t with reports := [] }) ∧
    (t.pc.toNat < t.layout.progSize → ∃ u, step t = .next u ∧ u.iis = false)

/-- Delivery and then JMP(R30, R31) lands on the interrupted `pc` with every register but 29, 30 and the dead slot 31
as it was (60_exceptions R130, R134; 70_reset R155). The jump reads `x[30]` after the link write (D16, log entry 13),
and slot 31 stores (D30, log entry 21); on a halted machine the delivery is decision D18 (log entry 18). -/
def Obligations.InterruptThenReturnResumes : Prop :=
  ∀ (s u : State) (ty : IrqType) (key : Word), s.Inv → s.iis = false →
    exec (.jmp 30 31) (raiseInterrupt s ty key) = .next u →
    u.pc = s.pc ∧ ∀ i, i ≠ 29 → i ≠ 30 → i ≠ 31 → u.slot i = s.slot i

/-! ### Loading and boot -/

/-- `load_program` (20_memory R41, 60_exceptions R144; on a machine that has stepped, decision D32): an image that
fits is copied to address 0 and sets `lpl` and `laa`; a larger one changes nothing and is reported. D32 is log entry
26. -/
def Obligations.LoadProgramCopiesTheImage : Prop :=
  ∀ (s : State) (bytes : List Byte),
    (bytes.length ≤ s.layout.progSize → ∃ t, perform (.loadProgram bytes) s = .next t ∧
      (∀ a, t.mem.readByte a = if a < bytes.length then bytes.getD a 0 else s.mem.readByte a) ∧
      t.lpl = bytes.length ∧ t.laa = BitVec.ofNat 32 (bytes.length - 4) ∧
      SameSlots s t ∧ t.pc = s.pc ∧ t.halted = s.halted ∧ t.iis = s.iis ∧ t.layout = s.layout ∧
      t.reports = [] ∧ t.faulted = s.faulted) ∧
    (s.layout.progSize < bytes.length →
      perform (.loadProgram bytes) s = .next { s with reports := [.imageTooLarge], faulted := true })

/-- `load_handler` (20_memory R42, 60_exceptions R144): an image that fits is copied to KB + 400; `lpl` and `laa` stay
(decision D23); a larger one changes nothing and is reported. D23 is log entry 20; on a machine that has stepped,
decision D32 (log entry 26). -/
def Obligations.LoadHandlerCopiesTheImage : Prop :=
  ∀ (s : State) (bytes : List Byte), s.Inv →
    let entry := s.layout.progSize + s.layout.vidSize + 400
    (bytes.length ≤ s.layout.kernSize - 400 → ∃ t, perform (.loadHandler bytes) s = .next t ∧
      (∀ a, t.mem.readByte a =
        if entry ≤ a ∧ a < entry + bytes.length then bytes.getD (a - entry) 0 else s.mem.readByte a) ∧
      t.laa = s.laa ∧ SameSlots s t ∧ t.pc = s.pc ∧ SameControl s t ∧ t.reports = [] ∧ t.faulted = s.faulted) ∧
    (s.layout.kernSize - 400 < bytes.length →
      perform (.loadHandler bytes) s = .next { s with reports := [.imageTooLarge], faulted := true })

/-- Boot (70_reset R149): after reset and `load_program` of an image that begins with an instruction's bytes, the
first step runs that instruction. The reset values are decision D5
(log entry 2), the opcode numbers D1's (log entry 4), and that the fetch leaves `laa` is decision D9 (log entry 20). -/
def Obligations.BootRunsTheFirstInstruction : Prop :=
  ∀ (l : Layout) (i : Instr) (rest : List Byte), l.wf = true → rest.length + 4 ≤ l.progSize →
    step (loadProgram (State.resetWith l) (encodeBytes i ++ rest)) =
      exec i (loadProgram (State.resetWith l) (encodeBytes i ++ rest))

/-! ### Reports and read accessors -/

/-- The read accessors (10_state R23, 60_exceptions R127, 45_disassembler R112; decision D9; that their reports set
the model's mark is decision D26, log entries 5 and 30): each completes, leaves every piece of the machine's state as
it was, and returns the value and the report its rule gives; the disassembler leaves even the model's own fields. D9
is log entries 20 and 30. -/
def Obligations.AccessorsChangeNothing : Prop :=
  (∀ (s : State) (o : Operation),
    ((∃ i, o = .readRegister i) ∨ (∃ a, o = .readMemoryWord a) ∨
      o ∈ [Operation.readPc, .readHalted, .readLastAccessed]) →
    ∃ t, perform o s = .next t ∧ { t with reports := s.reports, faulted := s.faulted } = s ∧
      t.reports = (respond o s).2 ∧ (t.faulted = true ↔ s.faulted = true ∨ (respond o s).2 ≠ [])) ∧
  (∀ s : State,
    (∀ i : RegIdx, respond (.readRegister i.toNat) s = (.word (readReg s i), [])) ∧
    (∀ i, 32 ≤ i → respond (.readRegister i) s = (.word 0, [.invalidRegister i])) ∧
    (∀ a, respond (.readMemoryWord a) s =
      (.word (memRead s a).1, if a.toNat < s.layout.memSize then [] else [.outOfRangeRead a])) ∧
    respond .readPc s = (.word s.pc, []) ∧ respond .readHalted s = (.bool s.halted, []) ∧
    respond .readLastAccessed s = (.word s.laa, []) ∧
    (∀ w, perform (.disassemble w) s = .next s))

/-- Every report, whichever operation raises it, sets the sticky mark, and nothing else sets it (60_exceptions R121,
decision D26; log entry 5). So a run without a reset ends unmarked exactly when none of its operations raised a report,
which is what the end of a run asks for (70_reset R151). -/
def Obligations.EveryReportSetsTheMark : Prop :=
  (∀ (o : Operation) (s t : State), perform o s = .next t → (∀ l, o ≠ .reset l) → (∀ w, o ≠ .disassemble w) →
    (t.faulted = true ↔ s.faulted = true ∨ t.reports ≠ [])) ∧
  (∀ (os : List Operation) (s t : State), (∀ o ∈ os, ∀ l, o ≠ Operation.reset l) → performAll os s = .next t →
    (t.faulted = false ↔ SafeRun os s))

/-! ### The open parameters -/

/-- The opcode numbers are a parameter (00_scope R5, 30_encoding R53, decision D1, log entry 4). Under EVERY one-to-one
map with HALT at 0, a step runs the instruction whose word, encoded under that map, stands at `pc`; a word the map gives
no instruction is reported and changes nothing else but what 40_step_halt R61 clears (decision D10, log entry 8); a fetch
beyond memory halts; and the disassembler reads the same map. That the fetch leaves `laa` is decision D9 (log
entry 20); the byte order of a fetch is 20_memory R29's. -/
def Obligations.OpcodeNumbersAreAParameter : Prop :=
  ∀ p : Params, p.WellFormed →
    (∀ (s : State) (i : Instr), s.halted = false → s.pc.toNat % 4 = 0 → s.pc.toNat + 4 ≤ s.layout.memSize →
      (∀ k, k < 4 → s.mem.readByte (s.pc.toNat + k) = (encodeWith p.opc i).extractLsb' (8 * k) 8) →
      stepWith p s = exec i { s with reports := [], iis := iisAfterBegin s }) ∧
    (∀ s : State, s.halted = false → s.pc.toNat % 4 = 0 → s.pc.toNat < s.layout.memSize →
      decodeWordWith p.opc (fetchWord s s.pc).1 = none →
      stepWith p s = .next { s with
        reports := [.invalidOpcode (fetchWord s s.pc).1], faulted := true, iis := iisAfterBegin s }) ∧
    (∀ s : State, s.halted = false → s.pc.toNat % 4 = 0 → s.layout.memSize ≤ s.pc.toNat →
      stepWith p s = .next { s with
        halted := true, reports := [.outOfRangeRead s.pc], faulted := true, iis := iisAfterBegin s }) ∧
    (∀ i : Instr, disassembleWith p.opc (encodeWith p.opc i) = (renderInstr i, true))

/-- The two metadata addresses are parameters (00_scope R5, 60_exceptions R131, decision D19, log entry 19; U11). For
every two addresses with a word in range, overlapping or not, a delivery stores the sentinel, then the type word, then on
key-down the key word, there and nowhere else; the registers, the entry point and what stays are those of R130 whatever
the addresses. `laa` is decision D22 (log entry 20), the byte order DEDUCED (R29; log entry 29), a halted machine's
delivery decision D18 (log entry 18), the bounds check D21. -/
def Obligations.MetadataAddressesAreParameters : Prop :=
  ∀ (p : Params) (s : State) (key : Word), s.Inv → s.iis = false →
    p.irqTypeAddr s.layout + 4 ≤ s.layout.memSize → p.irqKeyAddr s.layout + 4 ≤ s.layout.memSize →
    let kb := s.layout.progSize + s.layout.vidSize
    let sentinel := overlayWord s.lpl (BitVec.ofNat 32 kb) s.mem.readByte
    let entered (t : State) : Prop :=
      (∀ i, t.slot i = if i = 30 then s.pc else if i = 29 then BitVec.ofNat 32 (s.lpl + 4) else s.slot i) ∧
      t.pc.toNat = kb + 400 ∧ t.iis = true ∧ t.halted = s.halted ∧ t.lpl = s.lpl ∧ t.layout = s.layout ∧
      t.reports = [] ∧ t.faulted = s.faulted
    (∃ t, performWith p (.raiseInterrupt .keyDown key) s = .next t ∧ entered t ∧
      (∀ b, t.mem.readByte b =
        overlayWord (p.irqKeyAddr s.layout) key (overlayWord (p.irqTypeAddr s.layout) 0 sentinel) b) ∧
      t.laa.toNat = p.irqKeyAddr s.layout) ∧
    (∃ t, performWith p (.raiseInterrupt .keyUp key) s = .next t ∧ entered t ∧
      (∀ b, t.mem.readByte b = overlayWord (p.irqTypeAddr s.layout) 1 sentinel b) ∧
      t.laa.toNat = p.irqTypeAddr s.layout)
end

