-- ==== Sys2Proof/Laws/State.lean ====
section
/-!
SUPPORT. One lemma per field for each state update of Machine/Ops.lean, true by unfolding, so that no later proof
unfolds a record update; and what a register read sees after a register write.
-/
namespace Sys2Proof.Machine

/-! ### writeReg -/

@[simp] theorem writeReg_pc (s : State) (i : RegIdx) (v : Word) : (writeReg s i v).pc = s.pc := rfl

@[simp] theorem writeReg_halted (s : State) (i : RegIdx) (v : Word) : (writeReg s i v).halted = s.halted := rfl

@[simp] theorem writeReg_iis (s : State) (i : RegIdx) (v : Word) : (writeReg s i v).iis = s.iis := rfl

@[simp] theorem writeReg_laa (s : State) (i : RegIdx) (v : Word) : (writeReg s i v).laa = s.laa := rfl

@[simp] theorem writeReg_lpl (s : State) (i : RegIdx) (v : Word) : (writeReg s i v).lpl = s.lpl := rfl

@[simp] theorem writeReg_layout (s : State) (i : RegIdx) (v : Word) : (writeReg s i v).layout = s.layout := rfl

@[simp] theorem writeReg_mem (s : State) (i : RegIdx) (v : Word) : (writeReg s i v).mem = s.mem := rfl

@[simp] theorem writeReg_reports (s : State) (i : RegIdx) (v : Word) : (writeReg s i v).reports = s.reports := rfl

@[simp] theorem writeReg_faulted (s : State) (i : RegIdx) (v : Word) : (writeReg s i v).faulted = s.faulted := rfl

/-! ### raiseReport -/

@[simp] theorem raiseReport_regs (s : State) (r : Report) : (raiseReport s r).regs = s.regs := rfl

@[simp] theorem raiseReport_pc (s : State) (r : Report) : (raiseReport s r).pc = s.pc := rfl

@[simp] theorem raiseReport_halted (s : State) (r : Report) : (raiseReport s r).halted = s.halted := rfl

@[simp] theorem raiseReport_iis (s : State) (r : Report) : (raiseReport s r).iis = s.iis := rfl

@[simp] theorem raiseReport_laa (s : State) (r : Report) : (raiseReport s r).laa = s.laa := rfl

@[simp] theorem raiseReport_lpl (s : State) (r : Report) : (raiseReport s r).lpl = s.lpl := rfl

@[simp] theorem raiseReport_layout (s : State) (r : Report) : (raiseReport s r).layout = s.layout := rfl

@[simp] theorem raiseReport_mem (s : State) (r : Report) : (raiseReport s r).mem = s.mem := rfl

@[simp] theorem raiseReport_reports (s : State) (r : Report) : (raiseReport s r).reports = s.reports ++ [r] := rfl

@[simp] theorem raiseReport_faulted (s : State) (r : Report) : (raiseReport s r).faulted = true := rfl

/-! ### beginOperation -/

@[simp] theorem beginOperation_regs (s : State) : (beginOperation s).regs = s.regs := rfl

@[simp] theorem beginOperation_pc (s : State) : (beginOperation s).pc = s.pc := rfl

@[simp] theorem beginOperation_halted (s : State) : (beginOperation s).halted = s.halted := rfl

@[simp] theorem beginOperation_iis (s : State) : (beginOperation s).iis = s.iis := rfl

@[simp] theorem beginOperation_laa (s : State) : (beginOperation s).laa = s.laa := rfl

@[simp] theorem beginOperation_lpl (s : State) : (beginOperation s).lpl = s.lpl := rfl

@[simp] theorem beginOperation_layout (s : State) : (beginOperation s).layout = s.layout := rfl

@[simp] theorem beginOperation_mem (s : State) : (beginOperation s).mem = s.mem := rfl

@[simp] theorem beginOperation_reports (s : State) : (beginOperation s).reports = [] := rfl

@[simp] theorem beginOperation_faulted (s : State) : (beginOperation s).faulted = s.faulted := rfl

/-! ### recordReports -/

@[simp] theorem recordReports_regs (s : State) (rs : List Report) : (recordReports s rs).regs = s.regs := rfl

@[simp] theorem recordReports_pc (s : State) (rs : List Report) : (recordReports s rs).pc = s.pc := rfl

@[simp] theorem recordReports_halted (s : State) (rs : List Report) : (recordReports s rs).halted = s.halted := rfl

@[simp] theorem recordReports_iis (s : State) (rs : List Report) : (recordReports s rs).iis = s.iis := rfl

@[simp] theorem recordReports_laa (s : State) (rs : List Report) : (recordReports s rs).laa = s.laa := rfl

@[simp] theorem recordReports_lpl (s : State) (rs : List Report) : (recordReports s rs).lpl = s.lpl := rfl

@[simp] theorem recordReports_layout (s : State) (rs : List Report) : (recordReports s rs).layout = s.layout := rfl

@[simp] theorem recordReports_mem (s : State) (rs : List Report) : (recordReports s rs).mem = s.mem := rfl

@[simp] theorem recordReports_reports (s : State) (rs : List Report) : (recordReports s rs).reports = rs := rfl

@[simp] theorem recordReports_faulted (s : State) (rs : List Report) :
    (recordReports s rs).faulted = (s.faulted || !rs.isEmpty) := rfl

/-- No report: only the report set is emptied. -/
theorem recordReports_nil (s : State) : recordReports s [] = beginOperation s := by
  simp [recordReports, beginOperation]

/-- One report: as any operation that raises it. -/
theorem recordReports_singleton (s : State) (r : Report) :
    recordReports s [r] = raiseReport (beginOperation s) r := by
  simp [recordReports, raiseReport, beginOperation]

/-! ### advance -/

@[simp] theorem advance_regs (s : State) : (advance s).regs = s.regs := rfl

@[simp] theorem advance_pc (s : State) : (advance s).pc = s.pc + 4 := rfl

@[simp] theorem advance_halted (s : State) : (advance s).halted = s.halted := rfl

@[simp] theorem advance_iis (s : State) : (advance s).iis = s.iis := rfl

@[simp] theorem advance_laa (s : State) : (advance s).laa = s.laa := rfl

@[simp] theorem advance_lpl (s : State) : (advance s).lpl = s.lpl := rfl

@[simp] theorem advance_layout (s : State) : (advance s).layout = s.layout := rfl

@[simp] theorem advance_mem (s : State) : (advance s).mem = s.mem := rfl

@[simp] theorem advance_reports (s : State) : (advance s).reports = s.reports := rfl

@[simp] theorem advance_faulted (s : State) : (advance s).faulted = s.faulted := rfl

/-! ### writeLink -/

@[simp] theorem writeLink_pc (s : State) (rc : RegIdx) : (writeLink s rc).pc = s.pc := rfl

@[simp] theorem writeLink_halted (s : State) (rc : RegIdx) : (writeLink s rc).halted = s.halted := rfl

@[simp] theorem writeLink_iis (s : State) (rc : RegIdx) : (writeLink s rc).iis = s.iis := rfl

@[simp] theorem writeLink_laa (s : State) (rc : RegIdx) : (writeLink s rc).laa = s.laa := rfl

@[simp] theorem writeLink_lpl (s : State) (rc : RegIdx) : (writeLink s rc).lpl = s.lpl := rfl

@[simp] theorem writeLink_layout (s : State) (rc : RegIdx) : (writeLink s rc).layout = s.layout := rfl

@[simp] theorem writeLink_mem (s : State) (rc : RegIdx) : (writeLink s rc).mem = s.mem := rfl

@[simp] theorem writeLink_reports (s : State) (rc : RegIdx) : (writeLink s rc).reports = s.reports := rfl

@[simp] theorem writeLink_faulted (s : State) (rc : RegIdx) : (writeLink s rc).faulted = s.faulted := rfl

/-! ### retire -/

@[simp] theorem retire_pc (s : State) (rc : RegIdx) (v : Word) : (retire s rc v).pc = s.pc + 4 := rfl

@[simp] theorem retire_halted (s : State) (rc : RegIdx) (v : Word) : (retire s rc v).halted = s.halted := rfl

@[simp] theorem retire_iis (s : State) (rc : RegIdx) (v : Word) : (retire s rc v).iis = s.iis := rfl

@[simp] theorem retire_laa (s : State) (rc : RegIdx) (v : Word) : (retire s rc v).laa = s.laa := rfl

@[simp] theorem retire_lpl (s : State) (rc : RegIdx) (v : Word) : (retire s rc v).lpl = s.lpl := rfl

@[simp] theorem retire_layout (s : State) (rc : RegIdx) (v : Word) : (retire s rc v).layout = s.layout := rfl

@[simp] theorem retire_mem (s : State) (rc : RegIdx) (v : Word) : (retire s rc v).mem = s.mem := rfl

@[simp] theorem retire_reports (s : State) (rc : RegIdx) (v : Word) : (retire s rc v).reports = s.reports := rfl

@[simp] theorem retire_faulted (s : State) (rc : RegIdx) (v : Word) : (retire s rc v).faulted = s.faulted := rfl

/-! ### onInvalidOpcode -/

@[simp] theorem onInvalidOpcode_regs (s : State) (w : Word) : (onInvalidOpcode s w).regs = s.regs := rfl

@[simp] theorem onInvalidOpcode_pc (s : State) (w : Word) : (onInvalidOpcode s w).pc = s.pc := rfl

@[simp] theorem onInvalidOpcode_halted (s : State) (w : Word) : (onInvalidOpcode s w).halted = s.halted := rfl

@[simp] theorem onInvalidOpcode_iis (s : State) (w : Word) : (onInvalidOpcode s w).iis = s.iis := rfl

@[simp] theorem onInvalidOpcode_laa (s : State) (w : Word) : (onInvalidOpcode s w).laa = s.laa := rfl

@[simp] theorem onInvalidOpcode_lpl (s : State) (w : Word) : (onInvalidOpcode s w).lpl = s.lpl := rfl

@[simp] theorem onInvalidOpcode_layout (s : State) (w : Word) : (onInvalidOpcode s w).layout = s.layout := rfl

@[simp] theorem onInvalidOpcode_mem (s : State) (w : Word) : (onInvalidOpcode s w).mem = s.mem := rfl

@[simp] theorem onInvalidOpcode_reports (s : State) (w : Word) : (onInvalidOpcode s w).reports = s.reports ++ [.invalidOpcode w] := rfl

@[simp] theorem onInvalidOpcode_faulted (s : State) (w : Word) : (onInvalidOpcode s w).faulted = true := rfl

/-! ### onDivideByZero -/

@[simp] theorem onDivideByZero_regs (s : State) : (onDivideByZero s).regs = s.regs := rfl

@[simp] theorem onDivideByZero_pc (s : State) : (onDivideByZero s).pc = s.pc := rfl

@[simp] theorem onDivideByZero_halted (s : State) : (onDivideByZero s).halted = true := rfl

@[simp] theorem onDivideByZero_iis (s : State) : (onDivideByZero s).iis = s.iis := rfl

@[simp] theorem onDivideByZero_laa (s : State) : (onDivideByZero s).laa = s.laa := rfl

@[simp] theorem onDivideByZero_lpl (s : State) : (onDivideByZero s).lpl = s.lpl := rfl

@[simp] theorem onDivideByZero_layout (s : State) : (onDivideByZero s).layout = s.layout := rfl

@[simp] theorem onDivideByZero_mem (s : State) : (onDivideByZero s).mem = s.mem := rfl

@[simp] theorem onDivideByZero_reports (s : State) : (onDivideByZero s).reports = s.reports ++ [.divideByZero] := rfl

@[simp] theorem onDivideByZero_faulted (s : State) : (onDivideByZero s).faulted = true := rfl

/-! ### completeInterrupt: only `iis` can change -/

@[simp] theorem completeInterrupt_regs (s : State) : (completeInterrupt s).regs = s.regs := by
  unfold completeInterrupt; split <;> rfl

@[simp] theorem completeInterrupt_pc (s : State) : (completeInterrupt s).pc = s.pc := by
  unfold completeInterrupt; split <;> rfl

@[simp] theorem completeInterrupt_halted (s : State) : (completeInterrupt s).halted = s.halted := by
  unfold completeInterrupt; split <;> rfl

@[simp] theorem completeInterrupt_laa (s : State) : (completeInterrupt s).laa = s.laa := by
  unfold completeInterrupt; split <;> rfl

@[simp] theorem completeInterrupt_lpl (s : State) : (completeInterrupt s).lpl = s.lpl := by
  unfold completeInterrupt; split <;> rfl

@[simp] theorem completeInterrupt_layout (s : State) : (completeInterrupt s).layout = s.layout := by
  unfold completeInterrupt; split <;> rfl

@[simp] theorem completeInterrupt_mem (s : State) : (completeInterrupt s).mem = s.mem := by
  unfold completeInterrupt; split <;> rfl

@[simp] theorem completeInterrupt_reports (s : State) : (completeInterrupt s).reports = s.reports := by
  unfold completeInterrupt; split <;> rfl

@[simp] theorem completeInterrupt_faulted (s : State) : (completeInterrupt s).faulted = s.faulted := by
  unfold completeInterrupt; split <;> rfl

@[simp] theorem completeInterrupt_iis (s : State) :
    (completeInterrupt s).iis = (s.iis && !decide (s.pc.toNat < s.layout.progSize)) := by
  unfold completeInterrupt; split <;> simp [*]

/-! ### Register slots and the read port -/

theorem slot_congr {s t : State} (h : t.regs = s.regs) (i : RegIdx) : t.slot i = s.slot i := by
  simp [State.slot, h]

theorem readReg_congr {s t : State} (h : t.regs = s.regs) (i : RegIdx) : readReg t i = readReg s i := by
  simp [readReg, slot_congr h]

@[simp] theorem slot_writeReg (s : State) (i j : RegIdx) (v : Word) :
    (writeReg s i v).slot j = if j = i then v else s.slot j := by
  simp only [State.slot, writeReg, Vector.getElem_set]
  have : (i.toNat = j.toNat) ↔ j = i := by
    constructor
    · intro h; exact (BitVec.eq_of_toNat_eq h).symm
    · intro h; rw [h]
  simp [this]

@[simp] theorem readReg_writeReg (s : State) (i j : RegIdx) (v : Word) :
    readReg (writeReg s i v) j = if j = 31 then 0 else if j = i then v else readReg s j := by
  simp only [readReg, slot_writeReg, Config.regZero]
  split <;> simp_all

theorem readReg_eq (s : State) (i : RegIdx) : readReg s i = if i = 31 then 0 else s.slot i := rfl

/-- A register write is `SlotWritten`, on any state with the same register file. -/
theorem slotWritten_of_regs {s t : State} {rc : RegIdx} {v : Word} (h : t.regs = (writeReg s rc v).regs) :
    SlotWritten s t rc v :=
  ⟨fun i => by rw [slot_congr h, slot_writeReg], fun i => by rw [readReg_congr h, readReg_writeReg]⟩

end Sys2Proof.Machine
end

