-- ==== Sys2Proof/Laws/Memory.lean ====
section
/-!
SUPPORT. What memory operations do: a read after a write, and the canonical form (and the range of the listed addresses)
that every memory operation keeps.
-/
namespace Sys2Proof.Machine

/-! ### Reads after writes -/

theorem Memory.readByte_eraseCell (m : Memory) (a b : Nat) :
    (m.eraseCell a).readByte b = if b = a then Config.memInit else m.readByte b := by
  induction m with
  | nil => simp [Memory.eraseCell, Memory.readByte]
  | cons c rest ih =>
    have step : Memory.eraseCell (c :: rest) a = if c.1 = a then Memory.eraseCell rest a else c :: Memory.eraseCell rest a := by
      by_cases hc : c.1 = a <;> simp [Memory.eraseCell, hc]
    rw [step]
    by_cases hc : c.1 = a
    · rw [if_pos hc, ih, Memory.readByte]
      split_ifs <;> first | rfl | omega
    · rw [if_neg hc, Memory.readByte, Memory.readByte, ih]
      split_ifs <;> first | rfl | omega

theorem Memory.readByte_insertCell (m : Memory) (a b : Nat) (v : Byte) (h : ∀ c ∈ m, c.1 ≠ a) :
    (Memory.insertCell a v m).readByte b = if b = a then v else m.readByte b := by
  induction m with
  | nil =>
    by_cases hb : b = a
    · simp [Memory.insertCell, Memory.readByte, hb]
    · have : ¬ a = b := fun h => hb h.symm
      simp [Memory.insertCell, Memory.readByte, hb, this]
  | cons c rest ih =>
    have hc : c.1 ≠ a := h c (by simp)
    have ih := ih (fun d hd => h d (by simp [hd]))
    rw [Memory.insertCell]
    by_cases hlt : a < c.1
    · rw [if_pos hlt, Memory.readByte]
      split_ifs <;> first | rfl | omega
    · rw [if_neg hlt, Memory.readByte, Memory.readByte, ih]
      split_ifs <;> first | rfl | omega

/-- Reading one byte after storing one byte. -/
@[simp] theorem Memory.readByte_writeByte (m : Memory) (a b : Nat) (v : Byte) :
    (m.writeByte a v).readByte b = if b = a then v else m.readByte b := by
  unfold Memory.writeByte
  split
  · rename_i h; rw [readByte_eraseCell, h]
  · rw [readByte_insertCell]
    · rw [readByte_eraseCell]; split <;> rfl
    · intro c hc
      simp only [Memory.eraseCell, List.mem_filter, bne_iff_ne] at hc
      exact hc.2

/-- Reading one byte after storing a string of bytes. -/
theorem Memory.readByte_writeBytes (bs : List Byte) (m : Memory) (a b : Nat) :
    (m.writeBytes a bs).readByte b =
      if a ≤ b ∧ b < a + bs.length then bs.getD (b - a) 0 else m.readByte b := by
  induction bs generalizing m a with
  | nil =>
    have : ¬ (a ≤ b ∧ b < a + ([] : List Byte).length) := by simp
    rw [if_neg this]; rfl
  | cons x xs ih =>
    rw [Memory.writeBytes, ih]
    by_cases hlt : b < a
    · have h1 : ¬ (a + 1 ≤ b ∧ b < a + 1 + xs.length) := by omega
      have h2 : ¬ (a ≤ b ∧ b < a + (x :: xs).length) := by omega
      have h3 : ¬ b = a := by omega
      rw [if_neg h1, if_neg h2, readByte_writeByte, if_neg h3]
    · by_cases heq : b = a
      · have h1 : ¬ (a + 1 ≤ b ∧ b < a + 1 + xs.length) := by omega
        have h2 : a ≤ b ∧ b < a + (x :: xs).length := by simp; omega
        rw [if_neg h1, if_pos h2, readByte_writeByte, if_pos heq, heq]
        simp
      · by_cases hin : b < a + 1 + xs.length
        · have h1 : a + 1 ≤ b ∧ b < a + 1 + xs.length := by omega
          have h2 : a ≤ b ∧ b < a + (x :: xs).length := by simp; omega
          rw [if_pos h1, if_pos h2]
          obtain ⟨k, rfl⟩ : ∃ k, b = a + 1 + k := ⟨b - (a + 1), by omega⟩
          have e1 : a + 1 + k - (a + 1) = k := by omega
          have e2 : a + 1 + k - a = k + 1 := by omega
          rw [e1, e2]; simp
        · have h1 : ¬ (a + 1 ≤ b ∧ b < a + 1 + xs.length) := by omega
          have h2 : ¬ (a ≤ b ∧ b < a + (x :: xs).length) := by simp; omega
          rw [if_neg h1, if_neg h2, readByte_writeByte, if_neg heq]

/-- Reading one byte after storing a word: the four bytes in memory order, every other as before. -/
theorem Memory.readByte_writeWord (m : Memory) (a b : Nat) (v : Word) :
    (m.writeBytes a (wordBytes v)).readByte b =
      if b = a then v.extractLsb' 0 8
      else if b = a + 1 then v.extractLsb' 8 8
      else if b = a + 2 then v.extractLsb' 16 8
      else if b = a + 3 then v.extractLsb' 24 8
      else m.readByte b := by
  simp only [wordBytes, Memory.writeBytes, readByte_writeByte]
  split_ifs <;> first | rfl | omega

/-! ### The canonical form -/

theorem Memory.wf_iff (m : Memory) :
    m.wf = true ↔ List.Pairwise (fun c d : Host.Cell => c.1 < d.1) m ∧ ∀ c ∈ m, c.2 ≠ Config.memInit := by
  induction m with
  | nil => simp [Memory.wf]
  | cons c rest ih =>
    cases rest with
    | nil => simp [Memory.wf]
    | cons d rest =>
      simp only [Memory.wf, Bool.and_eq_true, bne_iff_ne, decide_eq_true_eq, ih, List.pairwise_cons]
      constructor
      · rintro ⟨⟨hc, hlt⟩, ⟨hd, hrest⟩, hne⟩
        refine ⟨⟨?_, hd, hrest⟩, ?_⟩
        · intro e he
          rcases List.mem_cons.1 he with rfl | he
          · exact hlt
          · exact Nat.lt_trans hlt (hd e he)
        · intro e he
          rcases List.mem_cons.1 he with rfl | he
          · exact hc
          · exact hne e he
      · rintro ⟨⟨hlt, hd, hrest⟩, hne⟩
        exact ⟨⟨hne c (by simp), hlt d (by simp)⟩, ⟨hd, hrest⟩, fun e he => hne e (by simp [he])⟩

theorem Memory.mem_insertCell {m : Memory} {a : Nat} {v : Byte} {c : Host.Cell} :
    c ∈ Memory.insertCell a v m ↔ c = (a, v) ∨ c ∈ m := by
  induction m with
  | nil => simp [Memory.insertCell]
  | cons d rest ih =>
    unfold Memory.insertCell
    split
    · simp
    · simp only [List.mem_cons, ih]; tauto

theorem Memory.wf_eraseCell {m : Memory} (h : m.wf = true) (a : Nat) : (m.eraseCell a).wf = true := by
  rw [wf_iff] at h ⊢
  exact ⟨h.1.filter _, fun c hc => h.2 c (List.mem_of_mem_filter hc)⟩

theorem Memory.wf_insertCell {m : Memory} {a : Nat} {v : Byte} (h : m.wf = true) (hv : v ≠ Config.memInit)
    (ha : ∀ c ∈ m, c.1 ≠ a) : (Memory.insertCell a v m).wf = true := by
  rw [wf_iff] at h ⊢
  refine ⟨?_, ?_⟩
  · induction m with
    | nil => simp [Memory.insertCell]
    | cons d rest ih =>
      have hp := List.pairwise_cons.1 h.1
      unfold Memory.insertCell
      split
      · rename_i hlt
        refine List.pairwise_cons.2 ⟨?_, h.1⟩
        intro e he
        rcases List.mem_cons.1 he with rfl | he
        · exact hlt
        · exact Nat.lt_trans hlt (hp.1 e he)
      · rename_i hlt
        refine List.pairwise_cons.2 ⟨?_, ?_⟩
        · intro e he
          rcases Memory.mem_insertCell.1 he with rfl | he
          · have := ha d (by simp); simp only; omega
          · exact hp.1 e he
        · exact ih ⟨hp.2, fun c hc => h.2 c (by simp [hc])⟩ (fun c hc => ha c (by simp [hc]))
  · intro c hc
    rcases Memory.mem_insertCell.1 hc with rfl | hc
    · exact hv
    · exact h.2 c hc

/-- Storing a byte keeps the canonical form. -/
theorem Memory.wf_writeByte {m : Memory} (h : m.wf = true) (a : Nat) (v : Byte) : (m.writeByte a v).wf = true := by
  unfold Memory.writeByte
  split
  · exact wf_eraseCell h a
  · rename_i hv
    refine wf_insertCell (wf_eraseCell h a) hv ?_
    intro c hc
    simp only [Memory.eraseCell, List.mem_filter, bne_iff_ne] at hc
    exact hc.2

/-- Storing a string of bytes keeps the canonical form. -/
theorem Memory.wf_writeBytes {m : Memory} (h : m.wf = true) (a : Nat) (bs : List Byte) :
    (m.writeBytes a bs).wf = true := by
  induction bs generalizing m a with
  | nil => exact h
  | cons x xs ih => exact ih (wf_writeByte h a x) (a + 1)

/-! ### The range of the listed addresses -/

theorem Memory.below_iff (m : Memory) (n : Nat) : m.below n = true ↔ ∀ c ∈ m, c.1 < n := by
  simp [Memory.below]

theorem Memory.below_writeByte {m : Memory} {n a : Nat} (h : m.below n = true) (ha : a < n) (v : Byte) :
    (m.writeByte a v).below n = true := by
  rw [below_iff] at h ⊢
  intro c hc
  unfold Memory.writeByte at hc
  split at hc
  · exact h c (List.mem_of_mem_filter hc)
  · rcases Memory.mem_insertCell.1 hc with rfl | hc
    · exact ha
    · exact h c (List.mem_of_mem_filter hc)

/-- Storing bytes below `n` lists no address at or above `n`. -/
theorem Memory.below_writeBytes {m : Memory} {n a : Nat} (h : m.below n = true) (bs : List Byte)
    (ha : a + bs.length ≤ n) : (m.writeBytes a bs).below n = true := by
  induction bs generalizing m a with
  | nil => exact h
  | cons x xs ih =>
    simp only [List.length_cons] at ha
    exact ih (below_writeByte h (by omega) x) (by omega)

/-- Two canonical memories that read alike at every address are the same list. -/
theorem Memory.ext_readByte {m n : Memory} (hm : m.wf = true) (hn : n.wf = true)
    (h : ∀ a, m.readByte a = n.readByte a) : m = n := by
  have mem_read : ∀ {l : Memory}, l.wf = true → ∀ c ∈ l, l.readByte c.1 = c.2 := by
    intro l hl
    rw [wf_iff] at hl
    induction l with
    | nil => simp
    | cons d rest ih =>
      have hp := List.pairwise_cons.1 hl.1
      intro c hc
      rcases List.mem_cons.1 hc with rfl | hc
      · simp [Memory.readByte]
      · have : ¬ d.1 = c.1 := by have := hp.1 c hc; omega
        simp only [Memory.readByte, this, if_false]
        exact ih ⟨hp.2, fun e he => hl.2 e (by simp [he])⟩ c hc
  have read_mem : ∀ {l : Memory} {a : Nat}, l.readByte a ≠ Config.memInit → (a, l.readByte a) ∈ l := by
    intro l a
    induction l with
    | nil => simp [Memory.readByte]
    | cons d rest ih =>
      intro hne
      by_cases hd : d.1 = a
      · have hr : Memory.readByte (d :: rest) a = d.2 := by simp [Memory.readByte, hd]
        rw [hr, ← hd]; simp
      · have hr : Memory.readByte (d :: rest) a = Memory.readByte rest a := by simp [Memory.readByte, hd]
        rw [hr] at hne ⊢
        exact List.mem_cons_of_mem _ (ih hne)
  have sub : ∀ {l k : Memory}, l.wf = true → (∀ a, l.readByte a = k.readByte a) → l ⊆ k := by
    intro l k hl hlk c hc
    have h1 := mem_read hl c hc
    have h2 : k.readByte c.1 ≠ Config.memInit := by
      rw [← hlk, h1]; exact ((wf_iff l).1 hl).2 c hc
    have h3 := read_mem h2
    rw [← hlk, h1] at h3
    exact h3
  have pm := ((wf_iff m).1 hm).1
  have pn := ((wf_iff n).1 hn).1
  have nodup : ∀ {l : Memory}, List.Pairwise (fun c d : Host.Cell => c.1 < d.1) l → l.Nodup := by
    intro l hl
    exact hl.imp (fun hlt heq => by rw [heq] at hlt; omega)
  have perm : m.Perm n :=
    (List.perm_ext_iff_of_nodup (nodup pm) (nodup pn)).2
      (fun c => ⟨fun hc => sub hm h hc, fun hc => sub hn (fun a => (h a).symm) hc⟩)
  exact perm.eq_of_pairwise (fun a b _ _ hab hba => by omega) pm pn

end Sys2Proof.Machine
end

