-- ==== Sys2Proof/Laws/Ops.lean ====
section
/-!
SUPPORT. One lemma per shared operation, saying once everything it does, and the inversion lemma of the dispatch. Later
proofs cite these instead of unfolding.
-/
namespace Sys2Proof.Machine

/-! ### Words in memory -/

/-- The value of a word read, in range, tail or out of range (20_memory R29 to R32). -/
theorem readsAs_wordAt (s : State) (a : Nat) : ReadsAs s a (wordAt s a) := by
  intro k hk
  have bytes : ∀ b0 b1 b2 b3 : Byte,
      (wordOfBytes b0 b1 b2 b3).extractLsb' 0 8 = b0 ∧ (wordOfBytes b0 b1 b2 b3).extractLsb' 8 8 = b1 ∧
      (wordOfBytes b0 b1 b2 b3).extractLsb' 16 8 = b2 ∧ (wordOfBytes b0 b1 b2 b3).extractLsb' 24 8 = b3 := by
    intro b0 b1 b2 b3
    refine ⟨?_, ?_, ?_, ?_⟩ <;> apply BitVec.eq_of_getLsbD_eq <;> intro j hj <;>
      simp only [wordOfBytes, BitVec.getLsbD_extractLsb', BitVec.getLsbD_append, hj, decide_true, Bool.true_and] <;>
      split_ifs <;> first | omega | (congr 1; omega)
  obtain ⟨h0, h1, h2, h3⟩ := bytes (byteOrZero s a) (byteOrZero s (a + 1)) (byteOrZero s (a + 2)) (byteOrZero s (a + 3))
  have hcases : k = 0 ∨ k = 1 ∨ k = 2 ∨ k = 3 := by omega
  rcases hcases with rfl | rfl | rfl | rfl
  · exact h0
  · exact h1
  · exact h2
  · exact h3

/-- A word is determined by what `ReadsAs` says of it. -/
theorem readsAs_unique {s : State} {a : Nat} {v w : Word} (hv : ReadsAs s a v) (hw : ReadsAs s a w) : v = w := by
  ext j hj
  have hk : j / 8 < 4 := by omega
  have h := (hv (j / 8) hk).trans (hw (j / 8) hk).symm
  have hbit := congrArg (fun b => b.getLsbD (j % 8)) h
  have hmod : j % 8 < 8 := Nat.mod_lt _ (by omega)
  have hsum : 8 * (j / 8) + j % 8 = j := Nat.div_add_mod j 8
  simp only [BitVec.getLsbD_extractLsb', hmod, decide_true, Bool.true_and, hsum] at hbit
  simpa [BitVec.getLsbD_eq_getElem hj] using hbit

theorem wordAt_congr {s t : State} (hm : t.mem = s.mem) (hl : t.layout = s.layout) (a : Nat) :
    wordAt t a = wordAt s a := by
  simp [wordAt, byteOrZero, hm, hl]

/-- A word read beyond the end of memory is 0 (20_memory R32). -/
theorem wordAt_out_of_range {s : State} {a : Nat} (h : s.layout.memSize ≤ a) : wordAt s a = 0 := by
  have h0 : ∀ k, byteOrZero s (a + k) = 0 := fun k => if_neg (by omega)
  have := h0 0
  simp only [Nat.add_zero] at this
  simp only [wordAt, this, h0]
  decide

/-! ### The read, fetch and write primitives -/

@[simp] theorem memRead_fst (s : State) (a : Word) : (memRead s a).1 = wordAt s a.toNat := rfl

@[simp] theorem fetchWord_fst (s : State) (a : Word) : (fetchWord s a).1 = wordAt s a.toNat := rfl

theorem memRead_snd_in_range {s : State} {a : Word} (h : a.toNat < s.layout.memSize) :
    (memRead s a).2 = { s with laa := a } := by simp [memRead, h]

theorem memRead_snd_out_of_range {s : State} {a : Word} (h : s.layout.memSize ≤ a.toNat) :
    (memRead s a).2 = raiseReport s (.outOfRangeRead a) := by simp [memRead, Nat.not_lt.2 h]

theorem fetchWord_snd_in_range {s : State} {a : Word} (h : a.toNat < s.layout.memSize) :
    (fetchWord s a).2 = s := by simp [fetchWord, h]

theorem fetchWord_snd_out_of_range {s : State} {a : Word} (h : s.layout.memSize ≤ a.toNat) :
    (fetchWord s a).2 = raiseReport s (.outOfRangeRead a) := by simp [fetchWord, Nat.not_lt.2 h]

theorem memWrite_in_range {s : State} {a : Word} (h : a.toNat + 4 ≤ s.layout.memSize) (v : Word) :
    memWrite s a v = { s with mem := s.mem.writeBytes a.toNat (wordBytes v), laa := a } := by simp [memWrite, h]

theorem memWrite_out_of_range {s : State} {a : Word} (h : s.layout.memSize < a.toNat + 4) (v : Word) :
    memWrite s a v = raiseReport s (.outOfRangeWrite a) := by simp [memWrite, Nat.not_le.2 h]

/-! What the primitives leave alone, in every case. -/

@[simp] theorem memRead_snd_regs (s : State) (a : Word) : (memRead s a).2.regs = s.regs := by
  unfold memRead; split <;> rfl

@[simp] theorem memRead_snd_pc (s : State) (a : Word) : (memRead s a).2.pc = s.pc := by
  unfold memRead; split <;> rfl

@[simp] theorem memRead_snd_halted (s : State) (a : Word) : (memRead s a).2.halted = s.halted := by
  unfold memRead; split <;> rfl

@[simp] theorem memRead_snd_iis (s : State) (a : Word) : (memRead s a).2.iis = s.iis := by
  unfold memRead; split <;> rfl

@[simp] theorem memRead_snd_lpl (s : State) (a : Word) : (memRead s a).2.lpl = s.lpl := by
  unfold memRead; split <;> rfl

@[simp] theorem memRead_snd_layout (s : State) (a : Word) : (memRead s a).2.layout = s.layout := by
  unfold memRead; split <;> rfl

@[simp] theorem memRead_snd_mem (s : State) (a : Word) : (memRead s a).2.mem = s.mem := by
  unfold memRead; split <;> rfl

@[simp] theorem fetchWord_snd_regs (s : State) (a : Word) : (fetchWord s a).2.regs = s.regs := by
  unfold fetchWord; split <;> rfl

@[simp] theorem fetchWord_snd_pc (s : State) (a : Word) : (fetchWord s a).2.pc = s.pc := by
  unfold fetchWord; split <;> rfl

@[simp] theorem fetchWord_snd_halted (s : State) (a : Word) : (fetchWord s a).2.halted = s.halted := by
  unfold fetchWord; split <;> rfl

@[simp] theorem fetchWord_snd_iis (s : State) (a : Word) : (fetchWord s a).2.iis = s.iis := by
  unfold fetchWord; split <;> rfl

@[simp] theorem fetchWord_snd_laa (s : State) (a : Word) : (fetchWord s a).2.laa = s.laa := by
  unfold fetchWord; split <;> rfl

@[simp] theorem fetchWord_snd_lpl (s : State) (a : Word) : (fetchWord s a).2.lpl = s.lpl := by
  unfold fetchWord; split <;> rfl

@[simp] theorem fetchWord_snd_layout (s : State) (a : Word) : (fetchWord s a).2.layout = s.layout := by
  unfold fetchWord; split <;> rfl

@[simp] theorem fetchWord_snd_mem (s : State) (a : Word) : (fetchWord s a).2.mem = s.mem := by
  unfold fetchWord; split <;> rfl

@[simp] theorem memWrite_regs (s : State) (a v : Word) : (memWrite s a v).regs = s.regs := by
  unfold memWrite; split <;> rfl

@[simp] theorem memWrite_pc (s : State) (a v : Word) : (memWrite s a v).pc = s.pc := by
  unfold memWrite; split <;> rfl

@[simp] theorem memWrite_halted (s : State) (a v : Word) : (memWrite s a v).halted = s.halted := by
  unfold memWrite; split <;> rfl

@[simp] theorem memWrite_iis (s : State) (a v : Word) : (memWrite s a v).iis = s.iis := by
  unfold memWrite; split <;> rfl

@[simp] theorem memWrite_lpl (s : State) (a v : Word) : (memWrite s a v).lpl = s.lpl := by
  unfold memWrite; split <;> rfl

@[simp] theorem memWrite_layout (s : State) (a v : Word) : (memWrite s a v).layout = s.layout := by
  unfold memWrite; split <;> rfl

/-- A store in range is `WordStored` (20_memory R33). -/
theorem wordStored_memWrite {s : State} {a : Word} (h : a.toNat + 4 ≤ s.layout.memSize) (v : Word) :
    WordStored s (memWrite s a v) a.toNat v := by
  intro b
  rw [memWrite_in_range h]
  exact Memory.readByte_writeWord s.mem a.toNat b v

theorem memWrite_wf {s : State} (h : s.mem.wf = true) (a v : Word) : (memWrite s a v).mem.wf = true := by
  unfold memWrite; split
  · exact Memory.wf_writeBytes h _ _
  · exact h

theorem memWrite_below {s : State} (h : s.mem.below s.layout.memSize = true) (a v : Word) :
    (memWrite s a v).mem.below s.layout.memSize = true := by
  unfold memWrite; split
  · rename_i hr; exact Memory.below_writeBytes h _ (by simpa [wordBytes] using hr)
  · exact h

/-! ### The shared parts of the meanings -/

/-- Writing a result and advancing (43_alu_register R79). -/
theorem aluDone_retire (s : State) (rc : RegIdx) (v : Word) : AluDone s (retire s rc v) rc v :=
  ⟨slotWritten_of_regs rfl, rfl, rfl, ⟨rfl, rfl, rfl, rfl⟩, fun _ => rfl, rfl, rfl⟩

/-- The whole of a load, in its three cases (41_load_store R69). -/
theorem loadDone_loadInto (s : State) (a : Word) (rc : RegIdx) : LoadDone s (loadInto s a rc) a rc := by
  refine ⟨⟨wordAt s a.toNat, readsAs_wordAt s a.toNat, slotWritten_of_regs ?_⟩, ?_, ⟨?_, ?_, ?_, ?_⟩, ?_, ?_, ?_⟩
  · simp [loadInto, retire, writeReg]
  · simp [loadInto]
  · simp [loadInto]
  · simp [loadInto]
  · simp [loadInto]
  · simp [loadInto]
  · intro b; simp [loadInto]
  · intro h; simp [loadInto, memRead_snd_in_range h, SameReports]
  · intro h; simp [loadInto, memRead_snd_out_of_range h, Reported]

/-- The whole of a store, in range and out of range (41_load_store R70). -/
theorem storeDone_storeFrom (s : State) (a : Word) (rc : RegIdx) :
    StoreDone s (storeFrom s a rc) a (readReg s rc) := by
  refine ⟨fun i => slot_congr (by simp [storeFrom]) i, ?_, ⟨?_, ?_, ?_, ?_⟩, ?_, ?_⟩
  · simp [storeFrom]
  · simp [storeFrom]
  · simp [storeFrom]
  · simp [storeFrom]
  · simp [storeFrom]
  · intro h
    refine ⟨?_, ?_, ?_⟩
    · intro b; simpa [storeFrom] using wordStored_memWrite h (readReg s rc) b
    · simp [storeFrom, memWrite_in_range h]
    · simp [storeFrom, memWrite_in_range h, SameReports]
  · intro h
    refine ⟨?_, ?_, ?_⟩
    · intro b; simp [storeFrom, memWrite_out_of_range h]
    · simp [storeFrom, memWrite_out_of_range h]
    · simp [storeFrom, memWrite_out_of_range h, Reported]

/-- The whole of a division by zero (60_exceptions R126). -/
theorem divideByZeroDone_onDivideByZero (s : State) : DivideByZeroDone s (onDivideByZero s) :=
  ⟨rfl, rfl, rfl, rfl, rfl, rfl, fun _ => rfl, fun _ => rfl, rfl, rfl⟩

/-- Everything an instruction can do to the state. -/
inductive ExecEffect (s : State) : State → Prop where
  | halt : ExecEffect s { s with halted := true }
  | retire (rc : RegIdx) (v : Word) : ExecEffect s (retire s rc v)
  | load (a : Word) (rc : RegIdx) : ExecEffect s (loadInto s a rc)
  | store (a : Word) (rc : RegIdx) : ExecEffect s (storeFrom s a rc)
  | jump (ra rc : RegIdx) : ExecEffect s { writeLink s rc with pc := jumpTarget (writeLink s rc) ra }
  | branch (taken : Bool) (lit : Lit) (rc : RegIdx) : ExecEffect s (branchIf taken lit (writeLink s rc))
  | divideByZero : ExecEffect s (onDivideByZero s)

theorem divideInto_cases (a b : Word) (rc : RegIdx) (s : State) :
    ∃ t, divideInto a b rc s = .next t ∧ ExecEffect s t := by
  unfold divideInto; split
  · exact ⟨_, rfl, .divideByZero⟩
  · exact ⟨_, rfl, .retire _ _⟩

/-- The inversion lemma of the dispatch: what any instruction does is one of `ExecEffect`. -/
theorem exec_cases (i : Instr) (s : State) : ∃ t, exec i s = .next t ∧ ExecEffect s t := by
  cases i
  case halt => exact ⟨_, rfl, .halt⟩
  case ld => exact ⟨_, rfl, .load _ _⟩
  case st => exact ⟨_, rfl, .store _ _⟩
  case jmp => exact ⟨_, rfl, .jump _ _⟩
  case beq => exact ⟨_, rfl, .branch _ _ _⟩
  case bne => exact ⟨_, rfl, .branch _ _ _⟩
  case ldr lit rc =>
    by_cases h : ldrStores s (pcRelative s lit) = true
    · exact ⟨_, by simp [exec, execLdr, h]; rfl, .store _ _⟩
    · exact ⟨_, by simp [exec, execLdr, h]; rfl, .load _ _⟩
  case div => exact divideInto_cases _ _ _ _
  case divc => exact divideInto_cases _ _ _ _
  all_goals exact ⟨_, rfl, .retire _ _⟩

end Sys2Proof.Machine
end

