-- ==== Sys2Proof/Laws/Encoding.lean ====
section
/-!
SUPPORT. The bits of the two instruction layouts (30_encoding R46): each bit, the opcode field, the unused bits.
-/
namespace Sys2Proof.Laws

/-- Each bit of the register-form layout (30_encoding R46). -/
theorem getLsbD_packRegister (op : BitVec 6) (rc ra rb : RegIdx) (j : Nat) :
    (packRegister op rc ra rb).getLsbD j =
      if j < 11 then false else if j < 16 then rb.getLsbD (j - 11) else if j < 21 then ra.getLsbD (j - 16)
      else if j < 26 then rc.getLsbD (j - 21) else op.getLsbD (j - 26) := by
  show BitVec.getLsbD (op ++ rc ++ ra ++ rb ++ 0#11) j = _
  simp only [BitVec.getLsbD_append, BitVec.getLsbD_zero]
  split_ifs <;> first | rfl | omega

/-- Each bit of the literal-form layout (30_encoding R46). -/
theorem getLsbD_packLiteral (op : BitVec 6) (rc ra : RegIdx) (lit : Lit) (j : Nat) :
    (packLiteral op rc ra lit).getLsbD j =
      if j < 16 then lit.getLsbD j else if j < 21 then ra.getLsbD (j - 16)
      else if j < 26 then rc.getLsbD (j - 21) else op.getLsbD (j - 26) := by
  show BitVec.getLsbD (op ++ rc ++ ra ++ lit) j = _
  simp only [BitVec.getLsbD_append]
  split_ifs <;> first | rfl | omega

/-- The opcode field of the register-form layout. -/
theorem opcode_packRegister (op : BitVec 6) (rc ra rb : RegIdx) : (packRegister op rc ra rb).extractLsb' 26 6 = op := by
  apply BitVec.eq_of_getLsbD_eq
  intro j hj
  simp only [BitVec.getLsbD_extractLsb', getLsbD_packRegister, hj, decide_true, Bool.true_and]
  split_ifs <;> first | omega | (congr 1; omega)

/-- The opcode field of the literal-form layout. -/
theorem opcode_packLiteral (op : BitVec 6) (rc ra : RegIdx) (lit : Lit) :
    (packLiteral op rc ra lit).extractLsb' 26 6 = op := by
  apply BitVec.eq_of_getLsbD_eq
  intro j hj
  simp only [BitVec.getLsbD_extractLsb', getLsbD_packLiteral, hj, decide_true, Bool.true_and]
  split_ifs <;> first | omega | (congr 1; omega)

/-- A mask that keeps nothing of a word: bit by bit. -/
theorem and_not_eq_zero {w m : Word} (h : ∀ j, j < 32 → w.getLsbD j = true → m.getLsbD j = true) :
    w &&& ~~~m = 0#32 := by
  apply BitVec.eq_of_getLsbD_eq
  intro j hj
  have := h j hj
  simp only [BitVec.getLsbD_and, BitVec.getLsbD_not, hj, decide_true, Bool.true_and, BitVec.getLsbD_zero]
  cases hw : w.getLsbD j <;> simp_all

/-- Bits 10..0 of the register-form layout are zero. -/
theorem unused_packRegister (op : BitVec 6) (rc ra rb : RegIdx) :
    packRegister op rc ra rb &&& ~~~0xFFFFF800#32 = 0#32 := by
  apply and_not_eq_zero
  intro j hj h
  by_cases hlow : j < 11
  · simp [getLsbD_packRegister, hlow] at h
  · have : ∀ k : Fin 32, 11 ≤ k.val → (0xFFFFF800#32).getLsbD k.val = true := by decide
    exact this ⟨j, hj⟩ (by simpa using hlow)

/-- The literal form uses every bit. -/
theorem unused_all (w : Word) : w &&& ~~~0xFFFFFFFF#32 = 0#32 := by
  have : ~~~0xFFFFFFFF#32 = 0#32 := by decide
  rw [this, BitVec.and_zero]

end Sys2Proof.Laws
end

