-- ==== Sys2Proof/Laws/Step.lean ====
section
/-!
SUPPORT. What a step and the loaders can do, each said once: the four outcomes of `step` under any parameters, and the two
of each loader.
-/
namespace Sys2Proof.Machine

/-- The state on which a step's arm runs: reports emptied, `iis` cleared below `P`, the fetch's report added. -/
abbrev fetched (s : State) : State := (fetchWord (beginStep s) s.pc).2

@[simp] theorem beginStep_mem (s : State) : (beginStep s).mem = s.mem := by simp [beginStep]

@[simp] theorem beginStep_layout (s : State) : (beginStep s).layout = s.layout := by simp [beginStep]

/-- The fetched word does not depend on what happens before the fetch. -/
theorem fetchWord_beginStep (s : State) : (fetchWord (beginStep s) s.pc).1 = (fetchWord s s.pc).1 :=
  wordAt_congr (beginStep_mem s) (beginStep_layout s) _

/-- The inversion lemma of the step, for any opcode map. -/
theorem stepWith_cases (p : Params) (s : State) :
    (s.halted = true ∧ stepWith p s = .next (beginOperation s)) ∨
    (s.halted = false ∧ s.pc.toNat % 4 ≠ 0 ∧ stepWith p s = .fault (.misalignedPc s.pc)) ∨
    (s.halted = false ∧ s.pc.toNat % 4 = 0 ∧ ∃ i t, decodeWordWith p.opc (fetchWord s s.pc).1 = some i ∧
      exec i (fetched s) = .next t ∧ stepWith p s = .next t ∧ ExecEffect (fetched s) t) ∨
    (s.halted = false ∧ s.pc.toNat % 4 = 0 ∧ decodeWordWith p.opc (fetchWord s s.pc).1 = none ∧
      stepWith p s = .next (onInvalidOpcode (fetched s) (fetchWord s s.pc).1)) := by
  cases hh : s.halted
  · by_cases ha : s.pc.toNat % 4 = 0
    · refine .inr (.inr ?_)
      cases hd : decodeWordWith p.opc (fetchWord s s.pc).1 with
      | none => exact .inr ⟨rfl, ha, rfl, by simp only [stepWith, hh, ha, fetchWord_beginStep, hd]; rfl⟩
      | some i =>
        obtain ⟨t, ht, he⟩ := exec_cases i (fetched s)
        exact .inl ⟨rfl, ha, i, t, rfl, ht, by simp only [stepWith, hh, ha, fetchWord_beginStep, hd]; exact ht, he⟩
    · exact .inr (.inl ⟨rfl, ha, by simp [stepWith, hh, ha]⟩)
  · exact .inl ⟨rfl, by simp [stepWith, hh]⟩

/-- `step` written out, at the default opcode numbers. -/
theorem step_def (s : State) :
    step s =
      if s.halted then .next (beginOperation s)
      else if s.pc.toNat % 4 ≠ 0 then .fault (.misalignedPc s.pc)
      else
        match decodeWord (fetchWord (beginStep s) s.pc).1 with
        | some i => exec i (fetched s)
        | none => .next (onInvalidOpcode (fetched s) (fetchWord (beginStep s) s.pc).1) := rfl

/-- The inversion lemma of the step. -/
theorem step_cases (s : State) :
    (s.halted = true ∧ step s = .next (beginOperation s)) ∨
    (s.halted = false ∧ s.pc.toNat % 4 ≠ 0 ∧ step s = .fault (.misalignedPc s.pc)) ∨
    (s.halted = false ∧ s.pc.toNat % 4 = 0 ∧ ∃ i t, decodeWord (fetchWord s s.pc).1 = some i ∧
      exec i (fetched s) = .next t ∧ step s = .next t ∧ ExecEffect (fetched s) t) ∨
    (s.halted = false ∧ s.pc.toNat % 4 = 0 ∧ decodeWord (fetchWord s s.pc).1 = none ∧
      step s = .next (onInvalidOpcode (fetched s) (fetchWord s s.pc).1)) :=
  stepWith_cases defaultParams s

theorem loadProgram_too_large {s : State} {bytes : List Byte} (h : s.layout.progSize < bytes.length) :
    loadProgram s bytes = raiseReport (beginOperation s) .imageTooLarge := if_pos h

theorem loadProgram_fits {s : State} {bytes : List Byte} (h : bytes.length ≤ s.layout.progSize) :
    loadProgram s bytes = { beginOperation s with
      mem := s.mem.writeBytes 0 bytes, lpl := bytes.length, laa := BitVec.ofNat 32 (lastWordAddr bytes.length) } :=
  if_neg (Nat.not_lt.mpr h)

theorem loadHandler_too_large {s : State} {bytes : List Byte}
    (h : s.layout.kernSize < bytes.length + Config.handlerOffset) :
    loadHandler s bytes = raiseReport (beginOperation s) .imageTooLarge := if_pos h

theorem loadHandler_fits {s : State} {bytes : List Byte} (h : bytes.length + Config.handlerOffset ≤ s.layout.kernSize) :
    loadHandler s bytes = { beginOperation s with mem := s.mem.writeBytes (handlerEntry s.layout) bytes } :=
  if_neg (Nat.not_lt.mpr h)

end Sys2Proof.Machine
end

