-- ==== Sys2Proof/Laws/Interface.lean ====
section
/-!
SUPPORT. The operations at the default parameters, each written out, and how a run takes its first operation.
-/
namespace Sys2Proof.Machine

theorem disassemble_def (w : Word) :
    disassemble w =
      match decodeWord w with
      | some i => (renderInstr i, true)
      | none => ("INVALID".toList, false) := rfl

theorem raiseInterrupt_def (s : State) (ty : IrqType) (key : Word) :
    raiseInterrupt s ty key =
      if s.iis then beginOperation s else writeIrqMetadata defaultParams (enterHandler (beginOperation s)) ty key := rfl

@[simp] theorem perform_reset (l : Layout) (s : State) : perform (.reset l) s = resetMachine l := rfl

@[simp] theorem perform_loadProgram (bytes : List Byte) (s : State) :
    perform (.loadProgram bytes) s = .next (loadProgram s bytes) := rfl

@[simp] theorem perform_loadHandler (bytes : List Byte) (s : State) :
    perform (.loadHandler bytes) s = .next (loadHandler s bytes) := rfl

@[simp] theorem perform_step (s : State) : perform .step s = step s := rfl

@[simp] theorem perform_raiseInterrupt (ty : IrqType) (key : Word) (s : State) :
    perform (.raiseInterrupt ty key) s = .next (raiseInterrupt s ty key) := rfl

@[simp] theorem perform_readRegister (i : Nat) (s : State) :
    perform (.readRegister i) s = .next (recordReports s (readRegister s i).2) := rfl

@[simp] theorem perform_readMemoryWord (a : Word) (s : State) :
    perform (.readMemoryWord a) s = .next (recordReports s (readMemoryWord s a).2) := rfl

@[simp] theorem perform_readPc (s : State) : perform .readPc s = .next (recordReports s []) := rfl

@[simp] theorem perform_readHalted (s : State) : perform .readHalted s = .next (recordReports s []) := rfl

@[simp] theorem perform_readLastAccessed (s : State) : perform .readLastAccessed s = .next (recordReports s []) := rfl

@[simp] theorem perform_disassemble (w : Word) (s : State) : perform (.disassemble w) s = .next s := rfl

@[simp] theorem respond_readRegister (i : Nat) (s : State) :
    respond (.readRegister i) s = (.word (readRegister s i).1, (readRegister s i).2) := rfl

@[simp] theorem respond_readMemoryWord (a : Word) (s : State) :
    respond (.readMemoryWord a) s = (.word (readMemoryWord s a).1, (readMemoryWord s a).2) := rfl

@[simp] theorem respond_readPc (s : State) : respond .readPc s = (.word s.pc, []) := rfl

@[simp] theorem respond_readHalted (s : State) : respond .readHalted s = (.bool s.halted, []) := rfl

@[simp] theorem respond_readLastAccessed (s : State) : respond .readLastAccessed s = (.word s.laa, []) := rfl

@[simp] theorem respond_disassemble (w : Word) (s : State) :
    respond (.disassemble w) s = (.text (disassemble w).1 (disassemble w).2, []) := rfl

@[simp] theorem performAll_nil (s : State) : performAll [] s = .next s := rfl

theorem performAll_cons (o : Operation) (os : List Operation) (s : State) :
    performAll (o :: os) s =
      match perform o s with
      | .next t => performAll os t
      | .fault r => .fault r
      | .refused r => .refused r := rfl

@[simp] theorem safeRun_nil (s : State) : SafeRun [] s ↔ s.faulted = false := Iff.rfl

theorem safeRun_cons (o : Operation) (os : List Operation) (s : State) :
    SafeRun (o :: os) s ↔ s.faulted = false ∧ ∃ t, perform o s = .next t ∧ SafeRun os t := Iff.rfl

end Sys2Proof.Machine
end

