-- ==== Sys2Proof/Laws/Interrupt.lean ====
section
/-!
SUPPORT. What taking an interrupt does, once and in full, where its writes are in range (as they are in a well-formed
layout, 60_exceptions R132): the state of each of its two parts, written out.
-/
namespace Sys2Proof.Machine

/-- The conditions under which every write of a delivery is in range: those of 00_scope R6 and 10_state R18 give them. -/
structure DeliveryInRange (s : State) : Prop where
  kernel : s.layout.kernelBase + 60 ≤ s.layout.memSize
  program : s.lpl + 4 ≤ s.layout.memSize
  size : s.layout.memSize ≤ 2 ^ 31

theorem toNat_ofNat_of_le {n : Nat} (h : n ≤ 2 ^ 31) : (BitVec.ofNat 32 n).toNat = n := by
  rw [BitVec.toNat_ofNat]; exact Nat.mod_eq_of_lt (by omega)

/-- A word written at an address that is a number in range. -/
theorem memWrite_ofNat {s : State} {a : Nat} (h : a + 4 ≤ s.layout.memSize) (hs : s.layout.memSize ≤ 2 ^ 31) (v : Word) :
    memWrite s (BitVec.ofNat 32 a) v = { s with mem := s.mem.writeBytes a (wordBytes v), laa := BitVec.ofNat 32 a } := by
  have ha : (BitVec.ofNat 32 a).toNat = a := toNat_ofNat_of_le (by omega)
  have hw := memWrite_in_range (s := s) (a := BitVec.ofNat 32 a) (by rw [ha]; exact h) v
  rw [ha] at hw
  exact hw

/-- Steps 1 to 3 of a delivery (60_exceptions R130). -/
theorem enterHandler_eq {s : State} (h : DeliveryInRange s) :
    enterHandler s =
      { writeReg (writeReg s 30#5 s.pc) 29#5 (BitVec.ofNat 32 (s.lpl + 4)) with
        pc := BitVec.ofNat 32 (s.layout.kernelBase + 400)
        iis := true
        mem := s.mem.writeBytes s.lpl (wordBytes (BitVec.ofNat 32 s.layout.kernelBase))
        laa := BitVec.ofNat 32 s.lpl } := by
  exact memWrite_ofNat (s := saveContext s) h.program h.size _

/-- The metadata addresses are in range: in a well-formed layout the defaults are (60_exceptions R132). -/
structure MetadataInRange (p : Params) (s : State) : Prop where
  type : p.irqTypeAddr s.layout + 4 ≤ s.layout.memSize
  key : p.irqKeyAddr s.layout + 4 ≤ s.layout.memSize
  size : s.layout.memSize ≤ 2 ^ 31

/-- The default addresses, `KB + 52` and `KB + 56`, are in range. -/
theorem DeliveryInRange.metadata {s : State} (h : DeliveryInRange s) : MetadataInRange defaultParams s := by
  have hkernel := h.kernel
  refine ⟨?_, ?_, h.size⟩
  · show s.layout.kernelBase + 52 + 4 ≤ s.layout.memSize; omega
  · show s.layout.kernelBase + 56 + 4 ≤ s.layout.memSize; omega

/-- The type word of step 4 (60_exceptions R131). -/
theorem writeIrqType_eq {p : Params} {s : State} (h : MetadataInRange p s) (ty : IrqType) :
    writeIrqType p s ty =
      { s with
        mem := s.mem.writeBytes (p.irqTypeAddr s.layout) (wordBytes (irqTypeWord ty))
        laa := BitVec.ofNat 32 (p.irqTypeAddr s.layout) } :=
  memWrite_ofNat h.type h.size _

/-- Step 4 on key-down: the type word 0 and the key word (60_exceptions R131). -/
theorem writeIrqMetadata_keyDown {p : Params} {s : State} (h : MetadataInRange p s) (key : Word) :
    writeIrqMetadata p s .keyDown key =
      { s with
        mem := (s.mem.writeBytes (p.irqTypeAddr s.layout) (wordBytes 0)).writeBytes (p.irqKeyAddr s.layout)
          (wordBytes key)
        laa := BitVec.ofNat 32 (p.irqKeyAddr s.layout) } := by
  show memWrite (writeIrqType p s .keyDown) (BitVec.ofNat 32 (p.irqKeyAddr s.layout)) key = _
  rw [writeIrqType_eq h]
  exact memWrite_ofNat (s := { s with
    mem := s.mem.writeBytes (p.irqTypeAddr s.layout) (wordBytes 0)
    laa := BitVec.ofNat 32 (p.irqTypeAddr s.layout) }) h.key h.size key

/-- Step 4 on key-up: the type word 1 alone (60_exceptions R131). -/
theorem writeIrqMetadata_keyUp {p : Params} {s : State} (h : MetadataInRange p s) (key : Word) :
    writeIrqMetadata p s .keyUp key =
      { s with
        mem := s.mem.writeBytes (p.irqTypeAddr s.layout) (wordBytes 1)
        laa := BitVec.ofNat 32 (p.irqTypeAddr s.layout) } :=
  writeIrqType_eq h .keyUp

end Sys2Proof.Machine
end

