-- ==== Sys2Proof/Laws/PerInstr.lean ====
section
/-!
SUPPORT. The per-instruction family `EncodedFields`: the opcode field of an instruction's canonical word is its number in
the opcode map, and the bits the instruction does not use are zero ("zeros elsewhere", 30_encoding R57).
-/
namespace Sys2Proof.Laws

def EncodedFields.Statement (i : Instr) : Prop :=
  (encode i).extractLsb' 26 6 = opcodeNumber i.mnemonic ∧ encode i &&& ~~~usedBits i.mnemonic = 0#32

theorem EncodedFields.halt : EncodedFields.Statement .halt := by unfold EncodedFields.Statement; decide

theorem EncodedFields.jmp (ra rc : RegIdx) : EncodedFields.Statement (.jmp ra rc) := by
  refine ⟨opcode_packLiteral _ _ _ _, and_not_eq_zero ?_⟩
  intro j hj h
  by_cases hlow : j < 16
  · simp [encode, encodeWith, getLsbD_packLiteral, hlow] at h
  · have : ∀ k : Fin 32, 16 ≤ k.val → (0xFFFF0000#32).getLsbD k.val = true := by decide
    exact this ⟨j, hj⟩ (by simpa using hlow)

theorem EncodedFields.ldr (lit : Lit) (rc : RegIdx) : EncodedFields.Statement (.ldr lit rc) := by
  refine ⟨opcode_packLiteral _ _ _ _, and_not_eq_zero ?_⟩
  intro j hj h
  by_cases hmid : 16 ≤ j ∧ j < 21
  · have h1 : ¬ j < 16 := by omega
    simp [encode, encodeWith, getLsbD_packLiteral, h1, hmid.2] at h
  · have : ∀ k : Fin 32, ¬ (16 ≤ k.val ∧ k.val < 21) → (0xFFE0FFFF#32).getLsbD k.val = true := by decide
    exact this ⟨j, hj⟩ hmid

theorem EncodedFields.ld (ra : RegIdx) (lit : Lit) (rc : RegIdx) : EncodedFields.Statement (.ld ra lit rc) :=
  ⟨opcode_packLiteral _ _ _ _, unused_all _⟩

theorem EncodedFields.beq (ra : RegIdx) (lit : Lit) (rc : RegIdx) : EncodedFields.Statement (.beq ra lit rc) :=
  ⟨opcode_packLiteral _ _ _ _, unused_all _⟩

theorem EncodedFields.bne (ra : RegIdx) (lit : Lit) (rc : RegIdx) : EncodedFields.Statement (.bne ra lit rc) :=
  ⟨opcode_packLiteral _ _ _ _, unused_all _⟩

theorem EncodedFields.addc (ra : RegIdx) (lit : Lit) (rc : RegIdx) : EncodedFields.Statement (.addc ra lit rc) :=
  ⟨opcode_packLiteral _ _ _ _, unused_all _⟩

theorem EncodedFields.subc (ra : RegIdx) (lit : Lit) (rc : RegIdx) : EncodedFields.Statement (.subc ra lit rc) :=
  ⟨opcode_packLiteral _ _ _ _, unused_all _⟩

theorem EncodedFields.mulc (ra : RegIdx) (lit : Lit) (rc : RegIdx) : EncodedFields.Statement (.mulc ra lit rc) :=
  ⟨opcode_packLiteral _ _ _ _, unused_all _⟩

theorem EncodedFields.divc (ra : RegIdx) (lit : Lit) (rc : RegIdx) : EncodedFields.Statement (.divc ra lit rc) :=
  ⟨opcode_packLiteral _ _ _ _, unused_all _⟩

theorem EncodedFields.cmpeqc (ra : RegIdx) (lit : Lit) (rc : RegIdx) : EncodedFields.Statement (.cmpeqc ra lit rc) :=
  ⟨opcode_packLiteral _ _ _ _, unused_all _⟩

theorem EncodedFields.cmpltc (ra : RegIdx) (lit : Lit) (rc : RegIdx) : EncodedFields.Statement (.cmpltc ra lit rc) :=
  ⟨opcode_packLiteral _ _ _ _, unused_all _⟩

theorem EncodedFields.cmplec (ra : RegIdx) (lit : Lit) (rc : RegIdx) : EncodedFields.Statement (.cmplec ra lit rc) :=
  ⟨opcode_packLiteral _ _ _ _, unused_all _⟩

theorem EncodedFields.andc (ra : RegIdx) (lit : Lit) (rc : RegIdx) : EncodedFields.Statement (.andc ra lit rc) :=
  ⟨opcode_packLiteral _ _ _ _, unused_all _⟩

theorem EncodedFields.orc (ra : RegIdx) (lit : Lit) (rc : RegIdx) : EncodedFields.Statement (.orc ra lit rc) :=
  ⟨opcode_packLiteral _ _ _ _, unused_all _⟩

theorem EncodedFields.xorc (ra : RegIdx) (lit : Lit) (rc : RegIdx) : EncodedFields.Statement (.xorc ra lit rc) :=
  ⟨opcode_packLiteral _ _ _ _, unused_all _⟩

theorem EncodedFields.shlc (ra : RegIdx) (lit : Lit) (rc : RegIdx) : EncodedFields.Statement (.shlc ra lit rc) :=
  ⟨opcode_packLiteral _ _ _ _, unused_all _⟩

theorem EncodedFields.shrc (ra : RegIdx) (lit : Lit) (rc : RegIdx) : EncodedFields.Statement (.shrc ra lit rc) :=
  ⟨opcode_packLiteral _ _ _ _, unused_all _⟩

theorem EncodedFields.srac (ra : RegIdx) (lit : Lit) (rc : RegIdx) : EncodedFields.Statement (.srac ra lit rc) :=
  ⟨opcode_packLiteral _ _ _ _, unused_all _⟩

theorem EncodedFields.st (rc : RegIdx) (lit : Lit) (ra : RegIdx) : EncodedFields.Statement (.st rc lit ra) :=
  ⟨opcode_packLiteral _ _ _ _, unused_all _⟩

theorem EncodedFields.add (ra rb rc : RegIdx) : EncodedFields.Statement (.add ra rb rc) :=
  ⟨opcode_packRegister _ _ _ _, unused_packRegister _ _ _ _⟩

theorem EncodedFields.sub (ra rb rc : RegIdx) : EncodedFields.Statement (.sub ra rb rc) :=
  ⟨opcode_packRegister _ _ _ _, unused_packRegister _ _ _ _⟩

theorem EncodedFields.mul (ra rb rc : RegIdx) : EncodedFields.Statement (.mul ra rb rc) :=
  ⟨opcode_packRegister _ _ _ _, unused_packRegister _ _ _ _⟩

theorem EncodedFields.div (ra rb rc : RegIdx) : EncodedFields.Statement (.div ra rb rc) :=
  ⟨opcode_packRegister _ _ _ _, unused_packRegister _ _ _ _⟩

theorem EncodedFields.cmpeq (ra rb rc : RegIdx) : EncodedFields.Statement (.cmpeq ra rb rc) :=
  ⟨opcode_packRegister _ _ _ _, unused_packRegister _ _ _ _⟩

theorem EncodedFields.cmplt (ra rb rc : RegIdx) : EncodedFields.Statement (.cmplt ra rb rc) :=
  ⟨opcode_packRegister _ _ _ _, unused_packRegister _ _ _ _⟩

theorem EncodedFields.cmple (ra rb rc : RegIdx) : EncodedFields.Statement (.cmple ra rb rc) :=
  ⟨opcode_packRegister _ _ _ _, unused_packRegister _ _ _ _⟩

theorem EncodedFields.and (ra rb rc : RegIdx) : EncodedFields.Statement (.and ra rb rc) :=
  ⟨opcode_packRegister _ _ _ _, unused_packRegister _ _ _ _⟩

theorem EncodedFields.or (ra rb rc : RegIdx) : EncodedFields.Statement (.or ra rb rc) :=
  ⟨opcode_packRegister _ _ _ _, unused_packRegister _ _ _ _⟩

theorem EncodedFields.xor (ra rb rc : RegIdx) : EncodedFields.Statement (.xor ra rb rc) :=
  ⟨opcode_packRegister _ _ _ _, unused_packRegister _ _ _ _⟩

theorem EncodedFields.shl (ra rb rc : RegIdx) : EncodedFields.Statement (.shl ra rb rc) :=
  ⟨opcode_packRegister _ _ _ _, unused_packRegister _ _ _ _⟩

theorem EncodedFields.shr (ra rb rc : RegIdx) : EncodedFields.Statement (.shr ra rb rc) :=
  ⟨opcode_packRegister _ _ _ _, unused_packRegister _ _ _ _⟩

theorem EncodedFields.sra (ra rb rc : RegIdx) : EncodedFields.Statement (.sra ra rb rc) :=
  ⟨opcode_packRegister _ _ _ _, unused_packRegister _ _ _ _⟩

end Sys2Proof.Laws
end

