-- ==== Sys2Proof/Tests/Slice0.lean ====
section
/-!
SUPPORT. Tests and witnesses. Expected values come from spec/: the encodings of 30_encoding and opcode_table.json, the
worked vectors of 95_test_vectors (their ids are in the docstrings) and 45_disassembler R120. A `witness_<Name>` theorem
shows states and operands that meet the hypotheses of `Obligations.<Name>`, for each of its clauses.
-/
namespace Sys2Proof.Tests

open Sys2Proof.Machine

/-! ### Helpers -/

/-- An outcome is a next state that meets a test. -/
def after (o : Host.Outcome State Fault Refusal) (p : State → Bool) : Bool :=
  match o with
  | .next t => p t
  | .fault _ => false
  | .refused _ => false

/-- A state with a word of memory placed by the test. -/
def place (a : Nat) (w : Word) (s : State) : State := { s with mem := s.mem.writeBytes a (wordBytes w) }

/-- The reset state at a given `pc`, with the given register values placed by the test. -/
def start (pc : Word) (regs : List (RegIdx × Word)) : State :=
  regs.foldl (fun s r => writeReg s r.1 r.2) { State.reset with pc := pc }

/-- Place an instruction word where the next step fetches it, step, and test the state after. -/
def runs (s : State) (w : Nat) (p : State → Bool) : Bool := after (step (s.withFetchWord 32 w)) p

/-- The vectors of 95_test_vectors sections 6 and 7: `x[1] = a`, `x[2] = b`, result `x[3] = r`, `pc = 4`, no report. -/
def alu (w : Nat) (a b r : Word) : Bool :=
  runs (start 0 [(1, a), (2, b)]) w (fun t => readReg t 3 == r && t.pc == 4 && t.reports == [] && !t.halted)

/-! ### Well-formedness: one ill-formed layout for each check (00_scope R6), and what is at the boundary -/

theorem test_layout_program_size_not_a_multiple_of_4 : (Layout.mk 0x1002 0x1000 0x800).wf = false := by decide

theorem test_layout_video_size_not_a_multiple_of_4 : (Layout.mk 0x1000 0x1001 0x800).wf = false := by decide

theorem test_layout_kernel_size_not_a_multiple_of_4 : (Layout.mk 0x1000 0x1000 0x803).wf = false := by decide

theorem test_layout_kernel_too_small : (Layout.mk 0x1000 0x1000 396).wf = false := by decide

theorem test_layout_memory_too_large : (Layout.mk 0x7FFFFE74 0 400).wf = false := by decide

theorem test_layout_at_the_boundary :
    (Layout.mk 0 0 400).wf = true ∧ (Layout.mk 0x7FFFFE70 0 400).wf = true ∧ Config.defaultLayout.wf = true := by decide

/-! ### Decoding: every constructor, from its encoding written out (30_encoding R46, R53) -/

theorem test_decode_control_and_memory :
    decodeWord 0b000000_00000_00000_0000000000000000 = some .halt ∧
    decodeWord 0b011000_00011_00001_1111111111111101 = some (.ld 1 (-3) 3) ∧
    decodeWord 0b011001_00011_00001_1111111111111101 = some (.st 3 (-3) 1) ∧
    decodeWord 0b011011_00011_00001_0000000000000000 = some (.jmp 1 3) ∧
    decodeWord 0b011100_00011_00001_1111111111111101 = some (.beq 1 (-3) 3) ∧
    decodeWord 0b011101_00011_00001_1111111111111101 = some (.bne 1 (-3) 3) ∧
    decodeWord 0b011111_00011_00000_1111111111111101 = some (.ldr (-3) 3) := by decide

theorem test_decode_register_alu :
    decodeWord 0b100000_00011_00001_00010_00000000000 = some (.add 1 2 3) ∧
    decodeWord 0b100001_00011_00001_00010_00000000000 = some (.sub 1 2 3) ∧
    decodeWord 0b100010_00011_00001_00010_00000000000 = some (.mul 1 2 3) ∧
    decodeWord 0b100011_00011_00001_00010_00000000000 = some (.div 1 2 3) ∧
    decodeWord 0b100100_00011_00001_00010_00000000000 = some (.cmpeq 1 2 3) ∧
    decodeWord 0b100101_00011_00001_00010_00000000000 = some (.cmplt 1 2 3) ∧
    decodeWord 0b100110_00011_00001_00010_00000000000 = some (.cmple 1 2 3) := by decide

theorem test_decode_register_alu_logic_and_shifts :
    decodeWord 0b101000_00011_00001_00010_00000000000 = some (.and 1 2 3) ∧
    decodeWord 0b101001_00011_00001_00010_00000000000 = some (.or 1 2 3) ∧
    decodeWord 0b101010_00011_00001_00010_00000000000 = some (.xor 1 2 3) ∧
    decodeWord 0b101100_00011_00001_00010_00000000000 = some (.shl 1 2 3) ∧
    decodeWord 0b101101_00011_00001_00010_00000000000 = some (.shr 1 2 3) ∧
    decodeWord 0b101110_00011_00001_00010_00000000000 = some (.sra 1 2 3) := by decide

theorem test_decode_literal_alu :
    decodeWord 0b110000_00011_00001_1111111111111101 = some (.addc 1 (-3) 3) ∧
    decodeWord 0b110001_00011_00001_1111111111111101 = some (.subc 1 (-3) 3) ∧
    decodeWord 0b110010_00011_00001_1111111111111101 = some (.mulc 1 (-3) 3) ∧
    decodeWord 0b110011_00011_00001_1111111111111101 = some (.divc 1 (-3) 3) ∧
    decodeWord 0b110100_00011_00001_1111111111111101 = some (.cmpeqc 1 (-3) 3) ∧
    decodeWord 0b110101_00011_00001_1111111111111101 = some (.cmpltc 1 (-3) 3) ∧
    decodeWord 0b110110_00011_00001_1111111111111101 = some (.cmplec 1 (-3) 3) := by decide

theorem test_decode_literal_alu_logic_and_shifts :
    decodeWord 0b111000_00011_00001_1111111111111101 = some (.andc 1 (-3) 3) ∧
    decodeWord 0b111001_00011_00001_1111111111111101 = some (.orc 1 (-3) 3) ∧
    decodeWord 0b111010_00011_00001_1111111111111101 = some (.xorc 1 (-3) 3) ∧
    decodeWord 0b111100_00011_00001_1111111111111101 = some (.shlc 1 (-3) 3) ∧
    decodeWord 0b111101_00011_00001_1111111111111101 = some (.shrc 1 (-3) 3) ∧
    decodeWord 0b111110_00011_00001_1111111111111101 = some (.srac 1 (-3) 3) := by decide

/-- 30_encoding R50: unused bits are ignored. -/
theorem test_decode_ignores_unused_bits :
    decodeWord 0x03FFFFFF = some .halt ∧ decodeWord 0x806117FF = some (.add 1 2 3) ∧
    decodeWord 0x6C61FFFF = some (.jmp 1 3) ∧ decodeWord 0x7C7F0005 = some (.ldr 5 3) := by decide

/-- 30_encoding R54 and vectors H5, H6. -/
theorem test_decode_rejects_by_name :
    decode (wordBytes 0x04000000) = .error (.invalidOpcode 0x04000000) ∧
    decode (wordBytes 0xAC611000) = .error (.invalidOpcode 0xAC611000) ∧
    decode (wordBytes 0xFFFFFFFF) = .error (.invalidOpcode 0xFFFFFFFF) ∧
    decode [0x00, 0x00, 0x00] = .error (.truncated 3) := by
  exact ⟨rfl, rfl, rfl, rfl⟩

/-- 30_encoding R45, 20_memory R29: the first byte is the least significant; the rest is left over. -/
theorem test_decode_bytes_little_endian :
    decode [0x05, 0x00, 0x41, 0xC0, 0x99] = .ok (.addc 1 5 2, [0x99]) ∧
    encodeBytes (.addc 1 5 2) = [0x05, 0x00, 0x41, 0xC0] ∧ decodeTableWord 32 0xC0410005 = some (.addc 1 5 2) := by
  exact ⟨rfl, rfl, rfl⟩

/-- 00_scope R5: the map is one to one and gives HALT the number 0. -/
theorem test_opcode_map_injective : (∀ m n, opcodeNumber m = opcodeNumber n → m = n) ∧ opcodeNumber .halt = 0 := by
  refine ⟨fun m n => ?_, rfl⟩
  cases m <;> cases n <;> simp [opcodeNumber]

/-! ### Disassembler (45_disassembler R120; 95_test_vectors section 8) -/

theorem test_disassemble_templates :
    disassemble 0x00000000 = ("HALT".toList, true) ∧
    disassemble 0x60410004 = ("LD(R1, 4, R2)".toList, true) ∧
    disassemble 0x645F0100 = ("ST(R2, 256, R31)".toList, true) ∧
    disassemble 0x6FFC0000 = ("JMP(R28, R31)".toList, true) ∧
    disassemble 0x739F0002 = ("BEQ(R31, 2, R28)".toList, true) ∧
    disassemble 0x77E1FFFD = ("BNE(R1, -3, R31)".toList, true) ∧
    disassemble 0x7C200007 = ("LDR(7, R1)".toList, true) := by decide

theorem test_disassemble_alu_and_invalid :
    disassemble 0x80611000 = ("ADD(R1, R2, R3)".toList, true) ∧
    disassemble 0xC0410005 = ("ADDC(R1, 5, R2)".toList, true) ∧
    disassemble 0xF861FFFF = ("SRAC(R1, -1, R3)".toList, true) ∧
    disassemble 0xF4620020 = ("SHRC(R2, 32, R3)".toList, true) ∧
    disassemble 0xAC611000 = ("INVALID".toList, false) := by decide

/-! ### Memory (95_test_vectors section 2) -/

/-- M6 and M7: tail reads. -/
theorem test_tail_read :
    (memRead (place 0x27FC 0xCCBBAA99 State.reset) 0x27FD).1 = 0x00CCBBAA ∧
    (memRead (place 0x27FC 0xCCBBAA99 State.reset) 0x27FF).1 = 0x000000CC ∧
    (memRead State.reset 0x27FD).2 = { State.reset with laa := 0x27FD } := by decide

/-- M8: an out-of-range read. -/
theorem test_out_of_range_read :
    memRead { State.reset with laa := 0x55 } 0x2800 =
      (0, { State.reset with laa := 0x55, reports := [.outOfRangeRead 0x2800], faulted := true }) := by decide

/-- M1: little-endian store, and the canonical form of what is stored. -/
theorem test_store_little_endian :
    (memWrite State.reset 0x100 0x11220044).mem = [(0x100, 0x44), (0x102, 0x22), (0x103, 0x11)] := by decide

/-- M4: a misaligned store. -/
theorem test_misaligned_store :
    wordAt (memWrite (place 0x104 0xAABBCCDD (place 0x100 0x11223344 State.reset)) 0x102 0xDEADBEEF) 0x100 = 0xBEEF3344 ∧
    wordAt (memWrite (place 0x104 0xAABBCCDD (place 0x100 0x11223344 State.reset)) 0x102 0xDEADBEEF) 0x104 =
      0xAABBDEAD := by decide

/-- M11: a tail store is refused whole. -/
theorem test_tail_store :
    memWrite State.reset 0x27FD 7 = { State.reset with reports := [.outOfRangeWrite 0x27FD], faulted := true } := by decide

/-- 10_state R23: the register accessor's range. -/
theorem test_read_register :
    readRegister (writeReg (writeReg State.reset 30 7) 31 9) 30 = (7, []) ∧
    readRegister (writeReg State.reset 31 9) 31 = (0, []) ∧
    readRegister State.reset 32 = (0, [.invalidRegister 32]) := by decide

/-- 60_exceptions R121: an accessor's report is folded into the mark, and nothing of the machine changes. -/
theorem test_accessor_reports_are_marked :
    after (perform (.readRegister 32) State.reset)
      (fun t => decide (t = { State.reset with reports := [.invalidRegister 32], faulted := true })) = true ∧
    after (perform (.readMemoryWord 0x2800) State.reset)
      (fun t => decide (t = { State.reset with reports := [.outOfRangeRead 0x2800], faulted := true })) = true ∧
    after (perform (.readRegister 31) State.reset) (fun t => decide (t = State.reset)) = true := by decide

/-! ### The step (95_test_vectors section 3) -/

/-- H1 and H3. -/
theorem test_halt_from_reset :
    after (step State.reset) (fun t => decide (t = { State.reset with halted := true })) = true ∧
    after (step { State.reset with halted := true }) (fun t => decide (t = { State.reset with halted := true })) = true := by
  decide

/-- H4. -/
theorem test_fetch_out_of_range :
    after (step (start 0x2800 [])) (fun t => t.halted && t.pc == 0x2800 && t.reports == [.outOfRangeRead 0x2800]) = true := by
  decide

/-- H5. -/
theorem test_invalid_opcode :
    runs State.reset 0x04000000 (fun t => t.pc == 0 && !t.halted && t.reports == [.invalidOpcode 0x04000000]) = true := by
  decide

/-- H7. -/
theorem test_in_service_clears_below_program_end :
    runs { start 0x0FFC [] with iis := true } 0x83FFF800 (fun t => !t.iis && t.pc == 0x1000) = true := by decide

/-- H8. -/
theorem test_in_service_stays_at_program_end :
    runs { start 0x1000 [] with iis := true } 0x83FFF800 (fun t => t.iis && t.pc == 0x1004) = true := by decide

/-- 10_state R14, U5: the model's fault. -/
theorem test_misaligned_pc : step (start 2 []) = .fault (.misalignedPc 2) := rfl

/-! ### Loads, stores, LDR (95_test_vectors section 4) -/

/-- A2. -/
theorem test_ld_negative_offset :
    runs (place 0xFC 0x12345678 (start 0 [(1, 0x100)])) 0x6041FFFC
      (fun t => readReg t 2 == 0x12345678 && t.laa == 0xFC && t.pc == 4) = true := by decide

/-- A6. -/
theorem test_ld_out_of_range :
    runs (start 0 [(2, 7)]) 0x605FFFFC
      (fun t => readReg t 2 == 0 && t.laa == 0 && t.pc == 4 && t.reports == [.outOfRangeRead 0xFFFFFFFC]) = true := by
  decide

/-- A7. -/
theorem test_st :
    runs (start 0 [(1, 0x200), (2, 0xDEADBEEF)]) 0x64410008
      (fun t => wordAt t 0x208 == 0xDEADBEEF && t.mem.readByte 0x208 == 0xEF && t.laa == 0x208 && t.pc == 4) = true := by
  decide

/-- A10. -/
theorem test_st_out_of_range :
    runs (start 0 [(1, 7)]) 0x643F7FFF
      (fun t => t.laa == 0 && t.pc == 4 && t.reports == [.outOfRangeWrite 0x7FFF] && t.mem.readByte 0x7FFF == 0) = true := by
  decide

/-- A13: a target equal to the kernel base is a load. -/
theorem test_ldr_at_kernel_base :
    runs (place 0x2000 0x04030201 (start 0 [(1, 0x5A5A5A5A)])) 0x7C2007FF
      (fun t => readReg t 1 == 0x04030201 && t.laa == 0x2000) = true := by decide

/-- A14: a target above it is a store. -/
theorem test_ldr_above_kernel_base :
    runs (place 0x2004 0x08070605 (start 0 [(1, 0x5A5A5A5A)])) 0x7C200800
      (fun t => readReg t 1 == 0x5A5A5A5A && wordAt t 0x2004 == 0x5A5A5A5A && t.laa == 0x2004) = true := by decide

/-! ### Control transfer (95_test_vectors section 5) -/

/-- B1. -/
theorem test_jmp :
    runs (start 8 [(1, 0x103)]) 0x6C410000 (fun t => readReg t 2 == 0xC && t.pc == 0x100) = true := by decide

/-- B2. -/
theorem test_jmp_links_first :
    runs (start 8 [(1, 0x200)]) 0x6C210000 (fun t => readReg t 1 == 0xC && t.pc == 0xC) = true := by decide

/-- B9. -/
theorem test_beq_backwards :
    runs (start 0x10 []) 0x7041FFFB (fun t => readReg t 2 == 0x14 && t.pc == 0) = true := by decide

/-- B12. -/
theorem test_beq_links_first :
    runs (start 0x10 []) 0x70210003 (fun t => readReg t 1 == 0x14 && t.pc == 0x14) = true := by decide

/-- B7. -/
theorem test_bne_taken :
    runs (start 0x10 [(1, 5)]) 0x74410003 (fun t => readReg t 2 == 0x14 && t.pc == 0x20) = true := by decide

/-- B8. -/
theorem test_bne_not_taken :
    runs (start 0x10 []) 0x74410003 (fun t => readReg t 2 == 0x14 && t.pc == 0x14) = true := by decide

/-! ### Register ALU (95_test_vectors section 6) -/

theorem test_add_wraps : alu 0x80611000 0x7FFFFFFF 1 0x80000000 = true := by decide
theorem test_sub_borrows : alu 0x84611000 0 1 0xFFFFFFFF = true := by decide
theorem test_mul_low_word : alu 0x88611000 0x12345678 0x9ABCDEF0 0x242D2080 = true := by decide
theorem test_div_truncates : alu 0x8C611000 0xFFFFFFF9 2 0xFFFFFFFD = true := by decide
theorem test_cmpeq : alu 0x90611000 0 0x80000000 0 = true := by decide
theorem test_cmpeq_holds : alu 0x90611000 5 5 1 = true := by decide
theorem test_cmplt_signed : alu 0x94611000 0x80000000 0x7FFFFFFF 1 = true := by decide
theorem test_cmplt_strict : alu 0x94611000 2 2 0 = true := by decide
theorem test_cmple_not_strict : alu 0x98611000 2 2 1 = true := by decide
theorem test_cmple_signed : alu 0x98611000 0x7FFFFFFF 0x80000000 0 = true := by decide
theorem test_and : alu 0xA0611000 0xF0F0F0F0 0xFF00FF00 0xF000F000 = true := by decide
theorem test_or : alu 0xA4611000 0xF0F0F0F0 0xFF00FF00 0xFFF0FFF0 = true := by decide
theorem test_xor : alu 0xA8611000 0xF0F0F0F0 0xFF00FF00 0x0FF00FF0 = true := by decide
theorem test_shl : alu 0xB0611000 0x80000001 1 2 = true := by decide
theorem test_shl_count_masked : alu 0xB0611000 3 0x21 6 = true := by decide
theorem test_shr_fills_zeros : alu 0xB4611000 0xFFFFFFF8 1 0x7FFFFFFC = true := by decide
theorem test_sra_fills_sign : alu 0xB8611000 0xFFFFFFF8 2 0xFFFFFFFE = true := by decide
theorem test_sra_by_31 : alu 0xB8611000 0x80000000 0x1F 0xFFFFFFFF = true := by decide

/-- `DIV(R1, R31, R3)` always divides by zero. -/
theorem test_div_by_zero :
    runs (start 0 [(1, 5), (3, 9)]) 0x8C61F800
      (fun t => readReg t 3 == 9 && t.pc == 0 && t.halted && t.reports == [.divideByZero]) = true := by decide

/-- `ADD(R1, R1, R1)`: both reads precede the write. -/
theorem test_add_source_is_destination :
    runs (start 0 [(1, 3)]) 0x80210800 (fun t => readReg t 1 == 6) = true := by decide

/-! ### Literal ALU (95_test_vectors section 7; the second argument of `alu` is not used by these words) -/

/-- S6. -/
theorem test_addc :
    runs (start 0 [(1, 10)]) 0xC0410005 (fun t => readReg t 2 == 15 && t.pc == 4) = true := by decide
theorem test_addc_sign_extends : alu 0xC0618000 0 0 0xFFFF8000 = true := by decide
theorem test_subc : alu 0xC461FFFF 0xA 0 0xB = true := by decide
theorem test_mulc : alu 0xC861FFFF 6 0 0xFFFFFFFA = true := by decide
theorem test_divc : alu 0xCC61FFFE 7 0 0xFFFFFFFD = true := by decide
theorem test_cmpeqc_sign_extends : alu 0xD061FFFF 0x0000FFFF 0 0 = true := by decide
theorem test_cmpltc : alu 0xD461FFFF 0xFFFFFFFE 0 1 = true := by decide
theorem test_cmplec : alu 0xD861FFFF 0 0 0 = true := by decide
theorem test_andc : alu 0xE061FF00 0x12345678 0 0x12345600 = true := by decide
theorem test_orc : alu 0xE4618000 0x12345678 0 0xFFFFD678 = true := by decide
theorem test_xorc : alu 0xE861FFFF 0x12345678 0 0xEDCBA987 = true := by decide
theorem test_shlc_count_masked : alu 0xF061FFFF 1 0 0x80000000 = true := by decide
theorem test_shrc : alu 0xF461001C 0xFF000000 0 0xF = true := by decide
theorem test_srac : alu 0xF8610021 0xFFFFFFF8 0 0xFFFFFFFC = true := by decide

theorem test_divc_by_zero :
    runs (start 0 [(1, 5), (3, 9)]) 0xCC610000
      (fun t => readReg t 3 == 9 && t.pc == 0 && t.halted && t.reports == [.divideByZero]) = true := by decide

/-! ### Interrupts and loading (95_test_vectors sections 2 and 9) -/

/-- I1. -/
theorem test_interrupt_key_down :
    raiseInterrupt State.reset .keyDown 0x41 =
      { place 0x2038 0x41 (place 0 0x2000 (start 0x2190 [(30, 0), (29, 4)])) with iis := true, laa := 0x2038 } := by
  decide

/-- The state of I3. -/
def i3 : State := { start 0x40 [(29, 0x1111), (30, 0x2222)] with lpl := 0x80 }

/-- I3. -/
theorem test_interrupt_key_up :
    raiseInterrupt i3 .keyUp 0x99 =
      { place 0x2034 1 (place 0x80 0x2000 (start 0x2190 [(30, 0x40), (29, 0x84)])) with
        iis := true, lpl := 0x80, laa := 0x2034 } := by
  decide

/-- I5. -/
theorem test_interrupt_dropped :
    raiseInterrupt { start 0x10 [] with iis := true } .keyDown 1 = { start 0x10 [] with iis := true } := by decide

/-- L5. -/
theorem test_load_program_five_bytes :
    (loadProgram State.reset [1, 2, 3, 4, 5]).lpl = 5 ∧ (loadProgram State.reset [1, 2, 3, 4, 5]).laa = 1 ∧
    (loadProgram State.reset [1, 2, 3, 4, 5]).mem = [(0, 1), (1, 2), (2, 3), (3, 4), (4, 5)] := by decide

/-- L2 and L3: shorter than a word. -/
theorem test_load_program_short :
    (loadProgram State.reset [0xEE]).lpl = 1 ∧ (loadProgram State.reset [0xEE]).laa = 0 ∧
    (loadProgram State.reset [1, 2, 3]).laa = 0 := by decide

/-- A small handler image. -/
theorem test_load_handler :
    (loadHandler State.reset [1, 2]).mem = [(0x2190, 1), (0x2191, 2)] ∧ (loadHandler State.reset [1, 2]).lpl = 0 := by
  decide

/-! ### Witnesses: states and operands that meet the hypotheses of the obligations -/

/-- The reset state meets the invariant. -/
theorem witness_reset_inv : State.reset.Inv := by
  constructor <;> decide

theorem witness_DecodeInvertsEncode : ∃ opc : OpcodeMap, ∀ m n, opc m = opc n → m = n :=
  ⟨opcodeNumber, test_opcode_map_injective.1⟩

theorem witness_EncodeOfDecodedKeepsUsedBits : ∃ w i, decodeWord w = some i ∧ encode i ≠ w :=
  ⟨0x806117FF, .add 1 2 3, by decide, by decide⟩

theorem witness_UnusedBitsAreIgnored :
    ∃ (w v : Word) (i : Instr), w ≠ v ∧ decodeWord w = some i ∧ w &&& usedBits i.mnemonic = v &&& usedBits i.mnemonic :=
  ⟨0x806117FF, 0x80611000, .add 1 2 3, by decide⟩

/-- Both sides of each boundary of the unassigned opcodes. -/
theorem witness_InvalidOpcodesAreTheUnassigned :
    decodeWord 0x00000000 ≠ none ∧ decodeWord 0x04000000 = none ∧ decodeWord 0x5C000000 = none ∧
    decodeWord 0x60000000 ≠ none ∧ decodeWord 0xF8000000 ≠ none ∧ decodeWord 0xFC000000 = none := by decide

theorem witness_LiteralIsSignExtended :
    (0x8000 : Lit).getLsbD 15 = true ∧ sext16 0x8000 = 0xFFFF8000 ∧
    (0x7FFF : Lit).getLsbD 15 = false ∧ sext16 0x7FFF = 0x00007FFF := by decide

theorem witness_DisassemblerAgreesWithDecoder :
    decodeWord 0x04000000 = none ∧ decodeWord 0x806117FF = some (.add 1 2 3) := by decide

theorem witness_RenderedTextDeterminesInstruction :
    renderInstr (.ldr (-2) 1) = renderInstr (.ldr 0xFFFE 1) := by decide

theorem witness_RegisterReadPort : (0 : RegIdx) ≠ 31 ∧ (30 : RegIdx) ≠ 31 := by decide

/-- The last whole word; the three tail positions; the first address past the end and the last of all. -/
theorem witness_memory_boundaries :
    (0x27FC : Word).toNat + 4 ≤ State.reset.layout.memSize ∧
    (0x27FD : Word).toNat < State.reset.layout.memSize ∧ State.reset.layout.memSize < (0x27FD : Word).toNat + 4 ∧
    (0x27FF : Word).toNat < State.reset.layout.memSize ∧
    State.reset.layout.memSize ≤ (0x2800 : Word).toNat ∧ State.reset.layout.memSize ≤ (0xFFFFFFFF : Word).toNat := by
  decide

theorem witness_ReadInRange : (0x27FC : Word).toNat + 4 ≤ State.reset.layout.memSize := by decide

theorem witness_ReadAtAndPastTheEnd :
    ((0x27FD : Word).toNat < State.reset.layout.memSize ∧ State.reset.layout.memSize < (0x27FD : Word).toNat + 4) ∧
    State.reset.layout.memSize ≤ (0x2800 : Word).toNat := by decide

theorem witness_WriteInRange : (0x27FC : Word).toNat + 4 ≤ State.reset.layout.memSize := by decide

theorem witness_WriteOutOfRange :
    State.reset.layout.memSize < (0x27FD : Word).toNat + 4 ∧ State.reset.layout.memSize < (0xFFFFFFFF : Word).toNat + 4 := by
  decide

theorem witness_WriteThenRead :
    (0x27FC : Word).toNat + 4 ≤ State.reset.layout.memSize ∧
    ((0x27FB : Word).toNat + 5 ≤ State.reset.layout.memSize ∧ State.reset.layout.memSize ≤ 2 ^ 31) ∧
    State.reset.layout.memSize < (0x27FD : Word).toNat + 4 := by decide

theorem witness_HaltHalts : (0x03FFFFFF : Word).extractLsb' 26 6 = 0b000000 := by decide

/-- Each clause, and both clauses of `IsQuotient`. -/
theorem witness_Division :
    readReg (start 0 [(2, 2)]) 2 ≠ 0 ∧ readReg State.reset 31 = 0 ∧ (0xFFFF : Lit) ≠ 0 ∧ (0 : Lit) = 0 ∧
    ¬ ((0xFFFFFFF9 : Word).toInt = -2 ^ 31 ∧ (2 : Word).toInt = -1) ∧
    ((0x80000000 : Word).toInt = -2 ^ 31 ∧ (0xFFFF : Lit).toInt = -1) := by decide

/-- Each clause of `LoadDone`: in range, tail, out of range. -/
theorem witness_LoadWord :
    trunc32 ((readReg (start 0 [(1, 0x2800)]) 1).toInt + (-4 : Lit).toInt) = 0x27FC ∧
    trunc32 ((readReg (start 0 [(1, 0x2800)]) 1).toInt + (-1 : Lit).toInt) = 0x27FF ∧
    trunc32 ((readReg (start 0 [(1, 0x2800)]) 1).toInt + (0 : Lit).toInt) = 0x2800 := by decide

/-- Each clause of `StoreDone`: in range, tail, out of range. -/
theorem witness_StoreWord :
    after (exec (.st 2 (-4) 1) (start 0 [(1, 0x2800), (2, 7)])) (fun t => t.laa == 0x27FC) = true ∧
    after (exec (.st 2 (-3) 1) (start 0 [(1, 0x2800), (2, 7)])) (fun t => t.reports == [.outOfRangeWrite 0x27FD]) = true ∧
    after (exec (.st 2 (-1) 31) (start 0 [(2, 7)])) (fun t => t.reports == [.outOfRangeWrite 0xFFFFFFFF]) = true := by
  decide

/-- The targets KB (load) and KB + 4 (store), of vectors A13 and A14. -/
theorem witness_LoadRelativeOrStore :
    (trunc32 (((0 : Word).toNat : Int) + 4 + 4 * (0x7FF : Lit).toInt)).toNat ≤ 0x1000 + 0x1000 ∧
    0x1000 + 0x1000 < (trunc32 (((0 : Word).toNat : Int) + 4 + 4 * (0x800 : Lit).toInt)).toNat := by decide

theorem witness_BranchesLinkThenTest :
    afterLink (start 0x10 []) 1 2 = 0 ∧ afterLink (start 0x10 [(1, 5)]) 1 2 ≠ 0 ∧ afterLink (start 0x10 []) 1 1 = 0x14 ∧
    afterLink (start 0x10 [(1, 5)]) 31 31 = 0 := by decide

/-- Vector A9: `ST(R2, 4, R31)` at 0 stores `JMP(R31, R31)` at 4. -/
theorem witness_StoreIsSeenByTheNextFetch :
    after (exec (.st 2 4 31) (start 0 [(2, 0x6FFF0000)])) (fun t => !t.halted) = true ∧
    baseOffset (start 0 [(2, 0x6FFF0000)]) 31 4 = (start 0 [(2, 0x6FFF0000)]).pc + 4 ∧
    ((start 0 [(2, 0x6FFF0000)]).pc + 4).toNat + 4 ≤ (start 0 [(2, 0x6FFF0000)]).layout.memSize ∧
    ((start 0 [(2, 0x6FFF0000)]).pc + 4).toNat % 4 = 0 ∧ (start 0 [(2, 0x6FFF0000)]).halted = false ∧
    decodeWord (readReg (start 0 [(2, 0x6FFF0000)]) 2) = some (.jmp 31 31) := by decide

/-- At the last word of memory. -/
theorem witness_StepRunsTheDecodedInstruction :
    (start 0x27FC []).halted = false ∧ (start 0x27FC []).pc.toNat % 4 = 0 ∧
    (start 0x27FC []).pc.toNat + 4 ≤ (start 0x27FC []).layout.memSize ∧
    decode [((start 0x27FC []).withFetchWord 32 0xC0410005).mem.readByte 0x27FC,
      ((start 0x27FC []).withFetchWord 32 0xC0410005).mem.readByte 0x27FD,
      ((start 0x27FC []).withFetchWord 32 0xC0410005).mem.readByte 0x27FE,
      ((start 0x27FC []).withFetchWord 32 0xC0410005).mem.readByte 0x27FF] = .ok (.addc 1 5 2, []) :=
  ⟨rfl, rfl, by decide, rfl⟩

theorem witness_HaltedIsTerminal :
    ({ State.reset with halted := true } : State).halted = true ∧
    (∀ o ∈ [Operation.step, .raiseInterrupt .keyDown 1, .loadProgram [1]], ∀ l, o ≠ Operation.reset l) ∧
    ∃ t, performAll [Operation.step, .raiseInterrupt .keyDown 1, .loadProgram [1]] { State.reset with halted := true } =
      .next t := by
  refine ⟨rfl, ?_, _, rfl⟩
  simp

theorem witness_InvalidOpcodeStalls :
    (State.reset.withFetchWord 32 0x04000000).halted = false ∧
    (State.reset.withFetchWord 32 0x04000000).pc.toNat % 4 = 0 ∧
    decodeWord (fetchWord (State.reset.withFetchWord 32 0x04000000) 0).1 = none := by decide

theorem witness_FetchBeyondMemoryHalts :
    (start 0x2800 []).halted = false ∧ (start 0x2800 []).pc.toNat % 4 = 0 ∧
    (start 0x2800 []).layout.memSize ≤ (start 0x2800 []).pc.toNat ∧
    (start 0xFFFFFFFC []).layout.memSize ≤ (start 0xFFFFFFFC []).pc.toNat := by decide

theorem witness_MisalignedPcFaults : (start 2 []).halted = false ∧ (start 2 []).pc.toNat % 4 ≠ 0 := by decide

/-- A step on each side of the program region's end. -/
theorem witness_StepClearsInServiceBelowProgramEnd :
    (start 0x0FFC []).pc.toNat < (start 0x0FFC []).layout.progSize ∧
    (start 0x1000 []).layout.progSize ≤ (start 0x1000 []).pc.toNat ∧
    (start 0x0FFC []).halted = false ∧ (start 0x1000 []).halted = false ∧
    after (step { start 0x0FFC [] with iis := true }) (fun t => !t.iis) = true ∧
    after (step { start 0x1000 [] with iis := true }) (fun t => t.iis) = true := by decide

theorem witness_SizesAndLengthAreFixed :
    (∃ t, perform (.loadProgram [1, 2, 3]) State.reset = .next t ∧ t.lpl = 3) ∧
    (∃ t, perform (.raiseInterrupt .keyDown 1) State.reset = .next t) ∧
    (∀ l, Operation.loadProgram [1, 2, 3] ≠ .reset l) ∧ (∀ bytes, Operation.step ≠ .loadProgram bytes) :=
  ⟨⟨_, rfl, rfl⟩, ⟨_, rfl⟩, by simp, by simp⟩

/-- A step that halts and one that does not. -/
theorem witness_OnlyHaltAndDivideByZeroHalt :
    State.reset.halted = false ∧ after (step State.reset) (fun t => t.halted) = true ∧
    runs State.reset 0xCC610000 (fun t => t.halted) = true ∧ runs State.reset 0x8C61F800 (fun t => t.halted) = true ∧
    runs State.reset 0x83FFF800 (fun t => !t.halted) = true := by decide

theorem witness_StepReportsAtMostOnce :
    runs State.reset 0x04000000 (fun t => t.faulted && t.reports.length == 1) = true ∧
    runs State.reset 0x83FFF800 (fun t => !t.faulted && t.reports == []) = true := by decide

/-- `ADDC(R1, 5, R2)`: the destination is slot 2, and slot 3 is another. -/
theorem witness_StepWritesOnlyTheRcRegister :
    (fetchWord (State.reset.withFetchWord 32 0xC0410005) 0).1.extractLsb' 21 5 = 2#5 ∧ (3 : RegIdx) ≠ 2#5 ∧
    runs State.reset 0xC0410005 (fun t => t.slot 2 == 5 && t.slot 3 == 0) = true := by decide

/-- `ADDC(R1, 5, R2)`, which is no store, and `LDR(0x7FF, R1)`, whose target is the kernel base. -/
theorem witness_OnlyStoresChangeMemory :
    (∃ t, step (State.reset.withFetchWord 32 0xC0410005) = .next t) ∧
    decodeWord (fetchWord (State.reset.withFetchWord 32 0xC0410005) 0).1 = some (.addc 1 5 2) ∧
    (∃ t, step (State.reset.withFetchWord 32 0x7C2007FF) = .next t) ∧
    decodeWord (fetchWord (State.reset.withFetchWord 32 0x7C2007FF) 0).1 = some (.ldr 0x7FF 1) ∧
    (trunc32 (((0 : Word).toNat : Int) + 4 + 4 * (0x7FF : Lit).toInt)).toNat ≤ 0x1000 + 0x1000 :=
  ⟨⟨_, rfl⟩, by decide, ⟨_, rfl⟩, by decide, by decide⟩

theorem witness_StepKeepsInv : State.reset.Inv ∧ ∃ t, step State.reset = .next t := ⟨witness_reset_inv, _, rfl⟩

theorem witness_ResetMeetsInv : (Layout.mk 0 0 400).wf = true := by decide

theorem witness_EveryInterleavingRunsOn :
    State.reset.Inv ∧
    ∀ l, Operation.reset l ∈ [Operation.step, .raiseInterrupt .keyDown 1, .reset ⟨0, 0, 400⟩, .step] → l.wf = true := by
  refine ⟨witness_reset_inv, fun l h => ?_⟩
  simp at h
  subst h
  decide

/-- Two states that differ in the dead slot, `laa`, `lpl` and the sticky mark; a step of one, and a fault. -/
theorem witness_UnreadStateDoesNotInfluenceAStep :
    SameVisible State.reset { writeReg State.reset 31 7 with laa := 1, lpl := 2, faulted := true } ∧
    (∃ t, step State.reset = .next t) ∧ (∃ f, step (start 2 []) = .fault f) := by
  refine ⟨⟨rfl, rfl, rfl, rfl, rfl, by decide⟩, ⟨_, rfl⟩, ⟨_, rfl⟩⟩

/-- The smallest kernel region, the largest memory, and one step past each. -/
theorem witness_ResetGivesAFreshMachine :
    (Layout.mk 0 0 400).wf = true ∧ (Layout.mk 0x7FFFFE70 0 400).wf = true ∧
    (Layout.mk 0 0 396).wf = false ∧ (Layout.mk 0x7FFFFE74 0 400).wf = false := by decide

theorem witness_InterruptInServiceIsDropped : ({ State.reset with iis := true } : State).iis = true := rfl

theorem witness_InterruptSavesAndEnters : State.reset.Inv ∧ State.reset.iis = false := ⟨witness_reset_inv, rfl⟩

/-- `lpl` at its upper end, the start of the video region. -/
theorem witness_InterruptRecordsTheEvent :
    ({ State.reset with lpl := 0x1000 } : State).Inv ∧ ({ State.reset with lpl := 0x1000 } : State).iis = false := by
  refine ⟨?_, rfl⟩
  constructor <;> decide

/-- A handler's return to the last word of the program region. -/
theorem witness_ReturnClearsInServiceAtTheNextStep :
    ({ start 0x2190 [(30, 0x0FFC)] with iis := true } : State).iis = true ∧
    ({ start 0x2190 [(30, 0x0FFC)] with iis := true } : State).halted = false ∧
    ∃ t, exec (.jmp 30 31) { start 0x2190 [(30, 0x0FFC)] with iis := true } = .next t ∧
      t.pc.toNat < t.layout.progSize :=
  ⟨rfl, rfl, _, rfl, by decide⟩

theorem witness_InterruptThenReturnResumes :
    State.reset.Inv ∧ State.reset.iis = false ∧
    ∃ u, exec (.jmp 30 31) (raiseInterrupt State.reset .keyUp 0) = .next u :=
  ⟨witness_reset_inv, rfl, _, rfl⟩

/-- An image of exactly `P` bytes, and one byte more (vectors L7, L8). -/
theorem witness_LoadProgramCopiesTheImage :
    (List.replicate 0x1000 (0 : Byte)).length ≤ State.reset.layout.progSize ∧
    State.reset.layout.progSize < (List.replicate 0x1001 (0 : Byte)).length := by
  simp only [List.length_replicate]
  decide

/-- An image of exactly `K - 400` bytes, and one byte more (vectors L9, L10). -/
theorem witness_LoadHandlerCopiesTheImage :
    State.reset.Inv ∧ (List.replicate 1648 (0 : Byte)).length ≤ State.reset.layout.kernSize - 400 ∧
    State.reset.layout.kernSize - 400 < (List.replicate 1649 (0 : Byte)).length := by
  simp only [List.length_replicate]
  exact ⟨witness_reset_inv, by decide, by decide⟩

/-- Each accessor's boundary: the last register and the first index past it, the last byte and the first past it. -/
theorem witness_AccessorsChangeNothing :
    (∃ i, Operation.readRegister 32 = .readRegister i) ∧ (∃ a, Operation.readMemoryWord 0x2800 = .readMemoryWord a) ∧
    Operation.readPc ∈ [Operation.readPc, .readHalted, .readLastAccessed] ∧ (31 : RegIdx).toNat = 31 ∧ 32 ≤ 32 ∧
    (0x27FF : Word).toNat < State.reset.layout.memSize ∧ ¬ (0x2800 : Word).toNat < State.reset.layout.memSize :=
  ⟨⟨_, rfl⟩, ⟨_, rfl⟩, by decide, rfl, by decide, by decide, by decide⟩

/-- An operation that reports and one that does not; a run that is safe and one whose accessor reports. -/
theorem witness_EveryReportSetsTheMark :
    (∃ t, perform (.readRegister 32) State.reset = .next t ∧ t.reports ≠ []) ∧
    (∃ t, perform .step State.reset = .next t ∧ t.reports = []) ∧
    (∀ o ∈ [Operation.readPc, .step], ∀ l, o ≠ Operation.reset l) ∧
    (∃ t, performAll [.readPc, .step] State.reset = .next t ∧ t.faulted = false) ∧
    (∃ t, performAll [.readRegister 32, .step] State.reset = .next t ∧ t.faulted = true) :=
  ⟨⟨_, rfl, by decide⟩, ⟨_, rfl, rfl⟩, by simp, ⟨_, rfl, rfl⟩, ⟨_, rfl, rfl⟩⟩

/-- Parameters other than the defaults: every two neighbouring numbers from 1 up swapped, and offsets 13 and 14 counted in
bytes, so that the two words overlap. -/
def otherParams : Params :=
  { opc := fun m => if opcodeNumber m = 0 then 0 else opcodeNumber m ^^^ 1
    irqTypeAddr := fun l => l.kernelBase + 13
    irqKeyAddr := fun l => l.kernelBase + 14 }

theorem test_default_params_well_formed : defaultParams.WellFormed :=
  ⟨test_opcode_map_injective.1, test_opcode_map_injective.2⟩

theorem test_other_params_well_formed : otherParams.WellFormed := by
  have distinct : ∀ m ∈ Mnemonic.all, ∀ n ∈ Mnemonic.all, otherParams.opc m = otherParams.opc n → m = n := by decide
  have complete : ∀ m, m ∈ Mnemonic.all := by intro m; cases m <;> decide
  exact ⟨fun m n => distinct m (complete m) n (complete n), rfl⟩

/-- `ADDC` has number 0x31 under `otherParams`, and the word that is ADDC by default is SUBC. -/
theorem test_step_under_another_opcode_map :
    after (stepWith otherParams (State.reset.withFetchWord 32 0xC4410005)) (fun t => readReg t 2 == 5) = true ∧
    after (stepWith otherParams (State.reset.withFetchWord 32 0xC0410005)) (fun t => readReg t 2 == 0xFFFFFFFB) = true := by
  decide

/-- The key word overwrites three bytes of the type word when the offsets count bytes. -/
theorem test_interrupt_at_other_addresses :
    (raiseInterruptWith otherParams State.reset .keyUp 0).mem.readByte 0x200D = 1 ∧
    wordAt (raiseInterruptWith otherParams State.reset .keyDown 0x41) 0x200E = 0x41 := by decide

/-- An encoded word at the last word of memory, an invalid one, and a fetch past the end. -/
theorem witness_OpcodeNumbersAreAParameter :
    otherParams.WellFormed ∧
    (∀ k, k < 4 → ((start 0x27FC []).withFetchWord 32 0xC4410005).mem.readByte (0x27FC + k) =
      (encodeWith otherParams.opc (.addc 1 5 2)).extractLsb' (8 * k) 8) ∧
    decodeWordWith otherParams.opc (fetchWord (State.reset.withFetchWord 32 0x04000000) 0).1 = none ∧
    (start 0x2800 []).layout.memSize ≤ (start 0x2800 []).pc.toNat :=
  ⟨test_other_params_well_formed, by decide, by decide, by decide⟩

/-- Overlapping addresses, and the last word of memory. -/
theorem witness_MetadataAddressesAreParameters :
    State.reset.Inv ∧ State.reset.iis = false ∧
    otherParams.irqTypeAddr State.reset.layout + 4 ≤ State.reset.layout.memSize ∧
    otherParams.irqKeyAddr State.reset.layout + 4 ≤ State.reset.layout.memSize ∧
    (0x27FC : Nat) + 4 ≤ State.reset.layout.memSize :=
  ⟨witness_reset_inv, rfl, by decide, by decide, by decide⟩

/-- An image that fills the program region. -/
theorem witness_BootRunsTheFirstInstruction :
    Config.defaultLayout.wf = true ∧ (List.replicate 0xFFC (0 : Byte)).length + 4 ≤ Config.defaultLayout.progSize := by
  simp only [List.length_replicate]
  decide

end Sys2Proof.Tests
end

section
/-!
Words read from memory (20_memory R30).
-/
namespace Sys2Proof.Proofs

open Sys2Proof.Machine

/-- A byte the array has is read as it is stored: no padding (20_memory R30). -/
theorem byteOrZero_in_range {s : State} {a : Nat} (h : a < s.layout.memSize) : byteOrZero s a = s.mem.readByte a :=
  if_pos h

/-- When all four bytes exist, the word read is these bytes, the lowest address in the lowest bits (20_memory R30). -/
theorem wordAt_in_range {s : State} {a : Nat} (h : a + 4 ≤ s.layout.memSize) :
    wordAt s a = s.mem.readByte (a + 3) ++ s.mem.readByte (a + 2) ++ s.mem.readByte (a + 1) ++ s.mem.readByte a := by
  have hbyte : ∀ k, k < 4 → byteOrZero s (a + k) = s.mem.readByte (a + k) :=
    fun k hk => byteOrZero_in_range (by omega)
  rw [wordAt, hbyte 1 (by omega), hbyte 2 (by omega), hbyte 3 (by omega), byteOrZero_in_range (by omega), wordOfBytes]

/-- Settles O10: the value is `wordAt`, which reads memory and the region sizes alone, and the first read changes only
`laa`, so the second finds the same word. -/
theorem readInRange : Obligations.ReadInRange := by
  unfold Obligations.ReadInRange
  intro s a h
  have hnext : (memRead s a).2 = { s with laa := a } := memRead_snd_in_range (by omega)
  refine ⟨wordAt_in_range h, hnext, ?_⟩
  rw [hnext]
  exact wordAt_congr rfl rfl a.toNat

end Sys2Proof.Proofs
end

section
/-!
The in-service flag across a step (40_step_halt R61): the step's beginning sets it, and no instruction changes it.
-/
namespace Sys2Proof.Proofs

open Sys2Proof.Machine

@[simp] theorem branchIf_iis (taken : Bool) (lit : Lit) (s : State) : (branchIf taken lit s).iis = s.iis := by
  cases taken <;> rfl

/-- No instruction writes the in-service flag (60_exceptions R134). -/
theorem execEffect_keeps_iis {s t : State} (h : ExecEffect s t) : t.iis = s.iis := by
  cases h with
  | halt => rfl
  | retire rc v => exact retire_iis s rc v
  | load a rc => simp [loadInto]
  | store a rc => simp [storeFrom]
  | jump ra rc => exact writeLink_iis s rc
  | branch taken lit rc => simp
  | divideByZero => exact onDivideByZero_iis s

/-- The fetch leaves the flag as the step's beginning set it (40_step_halt R61, R62). -/
theorem fetched_iis (s : State) : (fetched s).iis = iisAfterBegin s := by
  by_cases h : s.pc.toNat < s.layout.progSize <;> simp [beginStep, beginOperation, iisAfterBegin, h]

/-- What a step that is not refused leaves in the flag, an invalid opcode included (40_step_halt R61). -/
theorem step_iis {s t : State} (hrun : s.halted = false) (hstep : step s = .next t) : t.iis = iisAfterBegin s := by
  rcases step_cases s with ⟨hhalt, -⟩ | ⟨-, -, hfault⟩ | ⟨-, -, -, u, -, -, hu, heffect⟩ | ⟨-, -, -, hinvalid⟩
  · simp [hrun] at hhalt
  · simp [hfault] at hstep
  · obtain rfl : u = t := by simpa [hu] using hstep
    exact (execEffect_keeps_iis heffect).trans (fetched_iis s)
  · obtain rfl : onInvalidOpcode (fetched s) (fetchWord s s.pc).1 = t := by simpa [hinvalid] using hstep
    exact (onInvalidOpcode_iis _ _).trans (fetched_iis s)

/-- Settles O37: the flag after the step is the one set before the fetch, and the comparison of `pc` with `P` decides
it. -/
theorem stepClearsInServiceBelowProgramEnd : Obligations.StepClearsInServiceBelowProgramEnd := by
  unfold Obligations.StepClearsInServiceBelowProgramEnd
  intro s t hrun hstep
  have hiis : t.iis = iisAfterBegin s := step_iis hrun hstep
  exact ⟨fun hbelow => hiis.trans (if_pos hbelow), fun habove => hiis.trans (if_neg (Nat.not_lt.mpr habove))⟩

end Sys2Proof.Proofs
end

section
/-!
Interrupts while one is in service (60_exceptions R129): a delivery leaves the in-service flag set, and a request that
finds it set does nothing but empty the report set.
-/
namespace Sys2Proof.Proofs

open Sys2Proof.Machine

/-- With an interrupt in service a request is dropped (60_exceptions R129). -/
theorem raiseInterrupt_of_iis {s : State} (h : s.iis = true) (ty : IrqType) (key : Word) :
    raiseInterrupt s ty key = beginOperation s :=
  (raiseInterrupt_def s ty key).trans (if_pos h)

/-- Entering the handler sets the flag (60_exceptions R130); the sentinel's write keeps it, in range or not. -/
@[simp] theorem enterHandler_iis (s : State) : (enterHandler s).iis = true :=
  memWrite_iis (saveContext s) _ _

/-- The metadata writes keep the flag (60_exceptions R131). -/
@[simp] theorem writeIrqMetadata_iis (p : Params) (s : State) (ty : IrqType) (key : Word) :
    (writeIrqMetadata p s ty key).iis = s.iis := by
  cases ty with
  | keyDown => exact (memWrite_iis _ _ _).trans (memWrite_iis s _ _)
  | keyUp => exact memWrite_iis s _ _

/-- Dropped or delivered, a request leaves an interrupt in service (60_exceptions R129, R130). -/
@[simp] theorem raiseInterrupt_iis (s : State) (ty : IrqType) (key : Word) : (raiseInterrupt s ty key).iis = true := by
  by_cases h : s.iis = true
  · rw [raiseInterrupt_of_iis h]
    exact h
  · rw [raiseInterrupt_def, if_neg h, writeIrqMetadata_iis, enterHandler_iis]

/-- Any number of requests in a row leave a state in service, with no report pending, as it is. -/
theorem performAll_raiseInterrupts_of_iis {s : State} (h : s.iis = true) (es : List (IrqType × Word)) :
    performAll (es.map fun e => Operation.raiseInterrupt e.1 e.2) (beginOperation s) = .next (beginOperation s) := by
  induction es with
  | nil => rfl
  | cons e es ih =>
    have hdropped : raiseInterrupt (beginOperation s) e.1 e.2 = beginOperation s :=
      raiseInterrupt_of_iis (s := beginOperation s) h e.1 e.2
    rw [List.map_cons, performAll_cons, perform_raiseInterrupt, hdropped]
    exact ih

/-- Settles O48: a request leaves the flag set, so the first repeat only empties the report set, and by induction on the
others each finds the flag still set. -/
theorem interruptInServiceIsDropped : Obligations.InterruptInServiceIsDropped := by
  unfold Obligations.InterruptInServiceIsDropped
  refine ⟨fun s ty key h => raiseInterrupt_of_iis h ty key, fun s ty key e more => ?_⟩
  have hiis : (raiseInterrupt s ty key).iis = true := raiseInterrupt_iis s ty key
  rw [List.map_cons, performAll_cons, perform_raiseInterrupt, raiseInterrupt_of_iis hiis]
  exact performAll_raiseInterrupts_of_iis hiis more

end Sys2Proof.Proofs
end

section
/-!
The encoding (30_encoding): the fields of the two layouts, the opcode map read backwards, and from these the round trip
of decoder and encoder in both directions.
-/
namespace Sys2Proof.Proofs

open Sys2Proof.Machine Sys2Proof.Laws

/-- The fields of a register-form word are the ones it was packed from (30_encoding R46). -/
theorem fieldsOf_packRegister (op : BitVec 6) (rc ra rb : RegIdx) :
    fieldsOf (packRegister op rc ra rb) = ⟨op, rc, ra, rb, rb ++ 0#11⟩ := by
  simp only [fieldsOf, opcode_packRegister, Fields.mk.injEq, true_and]
  refine ⟨?_, ?_, ?_, ?_⟩ <;> apply BitVec.eq_of_getLsbD_eq <;> intro j hj <;>
    simp only [BitVec.getLsbD_extractLsb', getLsbD_packRegister, BitVec.getLsbD_append, hj, decide_true,
      Bool.true_and] <;>
    grind

/-- The fields of a literal-form word are the ones it was packed from (30_encoding R46). -/
theorem fieldsOf_packLiteral (op : BitVec 6) (rc ra : RegIdx) (lit : Lit) :
    fieldsOf (packLiteral op rc ra lit) = ⟨op, rc, ra, lit.extractLsb' 11 5, lit⟩ := by
  simp only [fieldsOf, opcode_packLiteral, Fields.mk.injEq, true_and]
  refine ⟨?_, ?_, ?_, ?_⟩ <;> apply BitVec.eq_of_getLsbD_eq <;> intro j hj <;>
    simp only [BitVec.getLsbD_extractLsb', getLsbD_packLiteral, hj, decide_true, Bool.true_and] <;>
    grind

/-- The opcode field of an assembled word is the instruction's number (30_encoding R57). -/
theorem opcode_encodeWith (opc : OpcodeMap) (i : Instr) : (fieldsOf (encodeWith opc i)).opcode = opc i.mnemonic := by
  cases i <;> simp only [encodeWith, fieldsOf_packRegister, fieldsOf_packLiteral, Instr.mnemonic]

/-- The fields an instruction uses are recovered from its assembled word (30_encoding R47, R57). -/
theorem instrOf_fieldsOf_encodeWith (opc : OpcodeMap) (i : Instr) :
    instrOf i.mnemonic (fieldsOf (encodeWith opc i)) = i := by
  cases i <;> simp only [encodeWith, fieldsOf_packRegister, fieldsOf_packLiteral, Instr.mnemonic, instrOf]

theorem mnemonic_instrOf (m : Mnemonic) (f : Fields) : (instrOf m f).mnemonic = m := by cases m <;> rfl

theorem mnemonic_mem_all (m : Mnemonic) : m ∈ Mnemonic.all := by cases m <;> decide

/-- A found mnemonic has the number that was looked up. -/
theorem opc_of_lookupOpcode {opc : OpcodeMap} {c : BitVec 6} {m : Mnemonic} (h : lookupOpcode opc c = some m) :
    opc m = c := by
  simpa using List.find?_some h

/-- Under a one-to-one map, looking a mnemonic's number up finds the mnemonic (30_encoding R53). -/
theorem lookupOpcode_opc {opc : OpcodeMap} (hinj : ∀ m n, opc m = opc n → m = n) (m : Mnemonic) :
    lookupOpcode opc (opc m) = some m := by
  cases h : lookupOpcode opc (opc m) with
  | none => simpa using List.find?_eq_none.1 h m (mnemonic_mem_all m)
  | some n => rw [hinj n m (opc_of_lookupOpcode h)]

theorem decodeWordWith_encodeWith {opc : OpcodeMap} (hinj : ∀ m n, opc m = opc n → m = n) (i : Instr) :
    decodeWordWith opc (encodeWith opc i) = some i := by
  rw [decodeWordWith, opcode_encodeWith, lookupOpcode_opc hinj, Option.map_some, instrOf_fieldsOf_encodeWith]

/-- The default map is one-to-one: each mnemonic is found from its number (30_encoding R53). -/
theorem opcodeNumber_injective : ∀ m n, opcodeNumber m = opcodeNumber n → m = n := by
  have hfound : ∀ m, lookupOpcode opcodeNumber (opcodeNumber m) = some m := by intro m; cases m <;> rfl
  intro m n h
  exact Option.some.inj ((hfound m).symm.trans (h ▸ hfound n))

theorem decodeWord_encode (i : Instr) : decodeWord (encode i) = some i :=
  decodeWordWith_encodeWith opcodeNumber_injective i

/-- The four bytes of a word, put together again (20_memory R29). -/
theorem wordOfBytes_extractLsb' (w : Word) :
    wordOfBytes (w.extractLsb' 0 8) (w.extractLsb' 8 8) (w.extractLsb' 16 8) (w.extractLsb' 24 8) = w := by
  apply BitVec.eq_of_getLsbD_eq
  intro j hj
  simp only [wordOfBytes, BitVec.getLsbD_append, BitVec.getLsbD_extractLsb']
  grind

/-- The decoder on the bytes of a word that decodes, with anything after them (20_memory R29). -/
theorem decode_wordBytes_append {w : Word} {i : Instr} (h : decodeWord w = some i) (rest : List Byte) :
    decode (wordBytes w ++ rest) = .ok (i, rest) := by
  simp only [wordBytes, List.cons_append, List.nil_append, decode, wordOfBytes_extractLsb', h]

/-- Settles O1: the fields of the assembled word are the operands, and a one-to-one map finds the mnemonic of its own
number; on bytes, the word is put together from its four bytes first. -/
theorem decodeInvertsEncode : Obligations.DecodeInvertsEncode := by
  unfold Obligations.DecodeInvertsEncode
  exact ⟨fun opc hinj i => decodeWordWith_encodeWith hinj i,
    fun i rest => decode_wordBytes_append (decodeWord_encode i) rest⟩

/-- What a word that decodes holds in its opcode field, and what it decodes to. -/
theorem decodeWord_eq_some {w : Word} {i : Instr} (h : decodeWord w = some i) :
    opcodeNumber i.mnemonic = (fieldsOf w).opcode ∧ instrOf i.mnemonic (fieldsOf w) = i := by
  obtain ⟨m, hm, rfl⟩ := Option.map_eq_some_iff.1 h
  rw [mnemonic_instrOf]
  exact ⟨opc_of_lookupOpcode hm, rfl⟩

/-- A word whose opcode field is a mnemonic's number decodes to that mnemonic's instruction. -/
theorem decodeWord_of_opcode {w : Word} {m : Mnemonic} (h : (fieldsOf w).opcode = opcodeNumber m) :
    decodeWord w = some (instrOf m (fieldsOf w)) := by
  rw [decodeWord, decodeWordWith, h, lookupOpcode_opc opcodeNumber_injective, Option.map_some]

/-- A masked word, field by field in the literal-form layout (30_encoding R46). -/
theorem and_eq_packLiteral (w mask : Word) :
    w &&& mask = packLiteral (w.extractLsb' 26 6 &&& mask.extractLsb' 26 6)
      (w.extractLsb' 21 5 &&& mask.extractLsb' 21 5)
      (w.extractLsb' 16 5 &&& mask.extractLsb' 16 5) (w.extractLsb' 0 16 &&& mask.extractLsb' 0 16) := by
  apply BitVec.eq_of_getLsbD_eq
  intro j hj
  simp only [getLsbD_packLiteral, BitVec.getLsbD_extractLsb', BitVec.getLsbD_and]
  grind

/-- The register form is the literal form with `Rb` above eleven zeros; these are a literal field's bits 15..11. -/
theorem packRegister_eq_packLiteral (op : BitVec 6) (rc ra : RegIdx) (w : Word) :
    packRegister op rc ra (w.extractLsb' 11 5) = packLiteral op rc ra (w.extractLsb' 0 16 &&& 0xF800#16) := by
  have hmask : ∀ k : Fin 16, (0xF800#16).getLsbD k = decide (11 ≤ k.val) := by decide
  apply BitVec.eq_of_getLsbD_eq
  intro j hj
  simp only [getLsbD_packRegister, getLsbD_packLiteral, BitVec.getLsbD_extractLsb', BitVec.getLsbD_and]
  by_cases hlit : j < 16
  · rw [hmask ⟨j, hlit⟩]
    grind
  · grind

/-- Assembling what a mnemonic makes of a word's fields gives the word without its unused bits (30_encoding R50). -/
theorem encode_instrOf_fieldsOf {w : Word} {m : Mnemonic} (h : opcodeNumber m = (fieldsOf w).opcode) :
    encode (instrOf m (fieldsOf w)) = w &&& usedBits m := by
  have full6 : ∀ x : BitVec 6, x &&& 63#6 = x := fun x => BitVec.and_allOnes
  have full5 : ∀ x : BitVec 5, x &&& 31#5 = x := fun x => BitVec.and_allOnes
  have full16 : ∀ x : BitVec 16, x &&& 65535#16 = x := fun x => BitVec.and_allOnes
  rw [and_eq_packLiteral]
  cases m <;>
    simp [encode, encodeWith, instrOf, usedBits, h, packRegister_eq_packLiteral, fieldsOf, full6, full5, full16]

/-- Settles O2: the decoded instruction is made of the word's own fields. -/
theorem encodeOfDecodedKeepsUsedBits : Obligations.EncodeOfDecodedKeepsUsedBits := by
  unfold Obligations.EncodeOfDecodedKeepsUsedBits
  intro w i h
  obtain ⟨hopcode, hinstr⟩ := decodeWord_eq_some h
  rw [← encode_instrOf_fieldsOf hopcode, hinstr]

/-- Every instruction uses the six opcode bits (30_encoding R46). -/
theorem opcode_and_usedBits (w : Word) (m : Mnemonic) : (fieldsOf (w &&& usedBits m)).opcode = (fieldsOf w).opcode := by
  have hall : (usedBits m).extractLsb' 26 6 = BitVec.allOnes 6 := by cases m <;> rfl
  show (w &&& usedBits m).extractLsb' 26 6 = w.extractLsb' 26 6
  rw [BitVec.extractLsb'_and, hall, BitVec.and_allOnes]

/-- Settles O3: the other word has the same opcode, so it decodes to some instruction of the same mnemonic, and both
instructions assemble to the same masked word (O2), which decodes to one instruction only (O1). -/
theorem unusedBitsAreIgnored : Obligations.UnusedBitsAreIgnored := by
  unfold Obligations.UnusedBitsAreIgnored
  intro w v i hw hagree
  obtain ⟨hopcode, hinstr⟩ := decodeWord_eq_some hw
  have hsame : opcodeNumber i.mnemonic = (fieldsOf v).opcode := by
    rw [hopcode, ← opcode_and_usedBits w i.mnemonic, hagree, opcode_and_usedBits]
  have hv : decodeWord v = some (instrOf i.mnemonic (fieldsOf v)) := decodeWord_of_opcode hsame.symm
  have hencode : encode (instrOf i.mnemonic (fieldsOf v)) = encode i := by
    rw [encode_instrOf_fieldsOf hsame, ← hagree, ← encode_instrOf_fieldsOf hopcode, hinstr]
  rw [hv, ← decodeWord_encode, hencode, decodeWord_encode]

/-- Settles O4: whether a word decodes is up to its opcode field, whose 64 values are looked up. -/
theorem invalidOpcodesAreTheUnassigned : Obligations.InvalidOpcodesAreTheUnassigned := by
  unfold Obligations.InvalidOpcodesAreTheUnassigned
  have htable : ∀ c : BitVec 6, lookupOpcode opcodeNumber c = none ↔
      (1 ≤ c.toNat ∧ c.toNat ≤ 0x17) ∨ c.toNat ∈ [0x1A, 0x1E, 0x27, 0x2B, 0x2F, 0x37, 0x3B, 0x3F] := by decide
  intro w
  rw [← htable]
  exact Option.map_eq_none_iff

/-- Settles O5, by running the decoder. -/
theorem sampleWordsDecode : Obligations.SampleWordsDecode := by
  unfold Obligations.SampleWordsDecode
  decide

/-- The disassembler's text of a word that decodes (45_disassembler R111). -/
theorem disassemble_of_decodeWord {w : Word} {i : Instr} (h : decodeWord w = some i) :
    disassemble w = (renderInstr i, true) := by
  rw [disassemble_def, h]

/-- The disassembler's answer to a word that does not decode (45_disassembler R117). -/
theorem disassemble_of_invalid {w : Word} (h : decodeWord w = none) :
    disassemble w = (['I', 'N', 'V', 'A', 'L', 'I', 'D'], false) := by
  rw [disassemble_def, h]
  rfl

/-- Settles O7: the text is a function of the decoded instruction alone. -/
theorem disassemblerAgreesWithDecoder : Obligations.DisassemblerAgreesWithDecoder := by
  unfold Obligations.DisassemblerAgreesWithDecoder
  intro w
  refine ⟨?_, disassemble_of_invalid, fun i h => ?_⟩
  · cases h : decodeWord w with
    | none => simp [disassemble_of_invalid h]
    | some i => simp [disassemble_of_decodeWord h]
  · rw [disassemble_of_decodeWord h, disassemble_of_decodeWord (decodeWord_encode i)]

end Sys2Proof.Proofs
end

section
/-!
The disassembler's text (45_disassembler R113 to R116) is read back: operands from their decimal digits, the operand
list from its commas, the mnemonic from what stands before the parenthesis.
-/
namespace Sys2Proof.Proofs

open Sys2Proof.Machine

/-! ### Decimal digits -/

/-- The number that decimal digits stand for, most significant first. -/
def digitsValue (cs : List Char) : Nat := cs.foldl (fun n c => 10 * n + (c.toNat - 48)) 0

theorem digitsValue_append_singleton (cs : List Char) (c : Char) :
    digitsValue (cs ++ [c]) = 10 * digitsValue cs + (c.toNat - 48) := by
  simp [digitsValue]

theorem toNat_digit {d : Nat} (h : d < 10) : (Char.ofNat (48 + d)).toNat = 48 + d := by
  have hall : ∀ d : Fin 10, (Char.ofNat (48 + d.val)).toNat = 48 + d.val := by decide
  exact hall ⟨d, h⟩

/-- The digits of a number that has at most `fuel` of them stand for that number. -/
theorem digitsValue_decimalChars (fuel n : Nat) (h : n < 10 ^ fuel) : digitsValue (decimalChars fuel n) = n := by
  induction fuel generalizing n with
  | zero =>
    have hzero : n = 0 := by simpa using h
    subst hzero
    rfl
  | succ fuel ih =>
    rw [decimalChars]
    split
    · next hlt => simp [digitsValue, toNat_digit hlt]
    · rw [digitsValue_append_singleton, ih (n / 10) (by omega), toNat_digit (Nat.mod_lt n (by omega))]
      omega

/-- What `decimalChars` gives are digits. -/
theorem isDigit_of_mem_decimalChars {fuel n : Nat} {c : Char} (h : c ∈ decimalChars fuel n) : c.isDigit = true := by
  have hdigit : ∀ d : Fin 10, (Char.ofNat (48 + d.val)).isDigit = true := by decide
  induction fuel generalizing n with
  | zero => simp [decimalChars] at h
  | succ fuel ih =>
    rw [decimalChars] at h
    split at h
    · next hlt =>
      rw [List.mem_singleton.1 h]
      exact hdigit ⟨n, hlt⟩
    · rcases List.mem_append.1 h with h | h
      · exact ih h
      · rw [List.mem_singleton.1 h]
        exact hdigit ⟨n % 10, Nat.mod_lt n (by omega)⟩

/-! ### Operands -/

theorem renderReg_injective : Function.Injective renderReg := by
  intro r q h
  have hvalue := congrArg digitsValue (List.cons.inj h).2
  rw [digitsValue_decimalChars 2 _ (by omega), digitsValue_decimalChars 2 _ (by omega)] at hvalue
  exact BitVec.eq_of_toNat_eq hvalue

/-- The sign is the text's first character, and the digits give the magnitude (45_disassembler R113). -/
theorem renderLit_injective : Function.Injective renderLit := by
  have hmagnitude : ∀ l : Lit, digitsValue (decimalChars 5 l.toInt.natAbs) = l.toInt.natAbs := by
    intro l
    have hlow := l.le_toInt
    have hhigh := l.toInt_lt
    exact digitsValue_decimalChars 5 _ (by omega)
  have hsign : ∀ (cs : List Char) (n : Nat), '-' :: cs ≠ decimalChars 5 n := by
    intro cs n h
    exact absurd (isDigit_of_mem_decimalChars (h ▸ List.mem_cons_self : '-' ∈ decimalChars 5 n)) (by decide)
  intro l k h
  apply BitVec.eq_of_toInt_eq
  have hl := hmagnitude l
  have hk := hmagnitude k
  unfold renderLit at h
  split at h <;> split at h
  · have habs := congrArg digitsValue (List.cons.inj h).2
    omega
  · exact absurd h (hsign _ _)
  · exact absurd h.symm (hsign _ _)
  · have habs := congrArg digitsValue h
    omega

theorem comma_notMem_decimalChars (fuel n : Nat) : ',' ∉ decimalChars fuel n :=
  fun h => absurd (isDigit_of_mem_decimalChars h) (by decide)

@[simp] theorem comma_notMem_renderReg (r : RegIdx) : ',' ∉ renderReg r := by
  simp [renderReg, comma_notMem_decimalChars]

@[simp] theorem comma_notMem_renderLit (l : Lit) : ',' ∉ renderLit l := by
  unfold renderLit
  split <;> simp [comma_notMem_decimalChars]

/-! ### The operand list and the mnemonic -/

/-- A text is cut at the first occurrence of a character in one way only. -/
theorem append_cons_inj {c : Char} {x y u v : List Char} (hx : c ∉ x) (hy : c ∉ y) (h : x ++ c :: u = y ++ c :: v) :
    x = y ∧ u = v := by
  induction x generalizing y with
  | nil =>
    cases y with
    | nil => exact ⟨rfl, (List.cons.inj h).2⟩
    | cons b y =>
      obtain rfl := (List.cons.inj h).1
      exact absurd List.mem_cons_self hy
  | cons a x ih =>
    cases y with
    | nil =>
      obtain rfl := (List.cons.inj h).1
      exact absurd List.mem_cons_self hx
    | cons b y =>
      obtain ⟨rfl, htail⟩ := List.cons.inj h
      obtain ⟨rfl, rfl⟩ :=
        ih (fun hc => hx (List.mem_cons_of_mem _ hc)) (fun hc => hy (List.mem_cons_of_mem _ hc)) htail
      exact ⟨rfl, rfl⟩

/-- With one more separator at the end, the operand list is each operand followed by the separator. -/
theorem joinOperands_append_separator {xs : List (List Char)} (h : xs ≠ []) :
    joinOperands xs ++ [',', ' '] = xs.flatMap (· ++ [',', ' ']) := by
  induction xs with
  | nil => exact absurd rfl h
  | cons x xs ih =>
    cases xs with
    | nil => simp [joinOperands]
    | cons y rest => 
      rw [joinOperands, List.append_assoc, ih (by simp)]
      simp only [List.flatMap_cons]

/-- Comma-free texts are recovered from the separators after them. -/
theorem flatMap_separator_injOn {xs ys : List (List Char)} (hxs : ∀ x ∈ xs, ',' ∉ x) (hys : ∀ y ∈ ys, ',' ∉ y)
    (h : xs.flatMap (· ++ [',', ' ']) = ys.flatMap (· ++ [',', ' '])) : xs = ys := by
  induction xs generalizing ys with
  | nil =>
    cases ys with
    | nil => rfl
    | cons y ys => simp at h
  | cons x xs ih =>
    cases ys with
    | nil => simp at h
    | cons y ys =>
      simp only [List.flatMap_cons, List.append_assoc, List.cons_append, List.nil_append] at h
      obtain ⟨rfl, htail⟩ := append_cons_inj (hxs x (by simp)) (hys y (by simp)) h
      rw [ih (fun z hz => hxs z (by simp [hz])) (fun z hz => hys z (by simp [hz])) (List.cons.inj htail).2]

/-- Calls of one mnemonic with the same text have the same operand texts. -/
theorem renderCall_injOn {name : String} {xs ys : List (List Char)} (hx : xs ≠ []) (hy : ys ≠ [])
    (hxs : ∀ x ∈ xs, ',' ∉ x) (hys : ∀ y ∈ ys, ',' ∉ y) (h : renderCall name xs = renderCall name ys) : xs = ys := by
  have hjoined : joinOperands xs = joinOperands ys := List.append_cancel_left (List.append_cancel_right h)
  refine flatMap_separator_injOn hxs hys ?_
  rw [← joinOperands_append_separator hx, ← joinOperands_append_separator hy, hjoined]

/-- The text shows every operand that the mnemonic's instruction has (45_disassembler R119). -/
theorem instrOf_eq_of_renderInstr_eq {m : Mnemonic} {f g : Fields}
    (h : renderInstr (instrOf m f) = renderInstr (instrOf m g)) : instrOf m f = instrOf m g := by
  cases m
  case halt => rfl
  all_goals
    have hoperands := renderCall_injOn (by simp) (by simp) (by simp) (by simp) h
    simp only [List.cons.injEq, renderReg_injective.eq_iff, renderLit_injective.eq_iff] at hoperands
    simp only [instrOf, hoperands]

/-- What stands before the first parenthesis. -/
def nameOfText (text : List Char) : List Char := text.takeWhile (· != '(')

theorem nameOfText_renderCall {name : String} (h : '(' ∉ name.toList) (operands : List (List Char)) :
    nameOfText (renderCall name operands) = name.toList := by
  have hname : ∀ c ∈ name.toList, (c != '(') = true := by
    intro c hc
    simp only [bne_iff_ne]
    rintro rfl
    exact h hc
  simp [nameOfText, renderCall, List.takeWhile_append_of_pos hname]

/-- The name in the text is the mnemonic's, whatever the operands. -/
theorem nameOfText_renderInstr (m : Mnemonic) (f g : Fields) :
    nameOfText (renderInstr (instrOf m f)) = nameOfText (renderInstr (instrOf m g)) := by
  cases m
  case halt => rfl
  all_goals exact (nameOfText_renderCall (by decide) _).trans (nameOfText_renderCall (by decide) _).symm

/-- Different mnemonics have different names. -/
theorem nameOfText_injective (f : Fields) :
    ∀ m n, nameOfText (renderInstr (instrOf m f)) = nameOfText (renderInstr (instrOf n f)) → m = n := by
  have hnodup : (Mnemonic.all.map fun m => nameOfText (renderInstr (instrOf m (fieldsOf 0)))).Nodup := by decide
  intro m n h
  rw [nameOfText_renderInstr m f (fieldsOf 0), nameOfText_renderInstr n f (fieldsOf 0)] at h
  exact List.inj_on_of_nodup_map hnodup (mnemonic_mem_all m) (mnemonic_mem_all n) h

/-- Settles O8: the name gives the mnemonic, and the operand texts give the fields it uses. -/
theorem renderedTextDeterminesInstruction : Obligations.RenderedTextDeterminesInstruction := by
  unfold Obligations.RenderedTextDeterminesInstruction
  intro i j h
  have hi := instrOf_fieldsOf_encodeWith opcodeNumber i
  have hj := instrOf_fieldsOf_encodeWith opcodeNumber j
  rw [← hi, ← hj] at h ⊢
  have hname := congrArg nameOfText h
  rw [nameOfText_renderInstr j.mnemonic _ (fieldsOf (encodeWith opcodeNumber i))] at hname
  have hmnemonic := nameOfText_injective _ _ _ hname
  rw [hmnemonic] at h ⊢
  exact instrOf_eq_of_renderInstr_eq h

end Sys2Proof.Proofs
end

section
/-!
What an instruction and a step leave unchanged, and what they report, each said once over the cases of `ExecEffect` and
of the step (10_state R14, R18, R19; 60_exceptions R121, R122).
-/
namespace Sys2Proof.Proofs

open Sys2Proof.Machine

/-! ### The branch and the step's beginning, field by field -/

@[simp] theorem branchIf_regs (taken : Bool) (lit : Lit) (s : State) : (branchIf taken lit s).regs = s.regs := by
  cases taken <;> rfl

@[simp] theorem branchIf_halted (taken : Bool) (lit : Lit) (s : State) : (branchIf taken lit s).halted = s.halted := by
  cases taken <;> rfl

@[simp] theorem branchIf_laa (taken : Bool) (lit : Lit) (s : State) : (branchIf taken lit s).laa = s.laa := by
  cases taken <;> rfl

@[simp] theorem branchIf_lpl (taken : Bool) (lit : Lit) (s : State) : (branchIf taken lit s).lpl = s.lpl := by
  cases taken <;> rfl

@[simp] theorem branchIf_layout (taken : Bool) (lit : Lit) (s : State) : (branchIf taken lit s).layout = s.layout := by
  cases taken <;> rfl

@[simp] theorem branchIf_mem (taken : Bool) (lit : Lit) (s : State) : (branchIf taken lit s).mem = s.mem := by
  cases taken <;> rfl

@[simp] theorem branchIf_reports (taken : Bool) (lit : Lit) (s : State) :
    (branchIf taken lit s).reports = s.reports := by
  cases taken <;> rfl

@[simp] theorem branchIf_faulted (taken : Bool) (lit : Lit) (s : State) :
    (branchIf taken lit s).faulted = s.faulted := by
  cases taken <;> rfl

theorem branchIf_pc (taken : Bool) (lit : Lit) (s : State) :
    (branchIf taken lit s).pc = if taken then pcRelative s lit else s.pc + 4 := by
  cases taken <;> rfl

/-- What happens before the fetch: the report set is emptied, and `iis` is cleared below `P` (40_step_halt R61). -/
theorem beginStep_eq (s : State) : beginStep s = { s with reports := [], iis := iisAfterBegin s } := by
  by_cases h : s.pc.toNat < s.layout.progSize <;> simp [beginStep, beginOperation, completeInterrupt, iisAfterBegin, h]

@[simp] theorem beginStep_regs (s : State) : (beginStep s).regs = s.regs := by rw [beginStep_eq]

@[simp] theorem beginStep_pc (s : State) : (beginStep s).pc = s.pc := by rw [beginStep_eq]

@[simp] theorem beginStep_halted (s : State) : (beginStep s).halted = s.halted := by rw [beginStep_eq]

@[simp] theorem beginStep_iis (s : State) : (beginStep s).iis = iisAfterBegin s := by rw [beginStep_eq]

@[simp] theorem beginStep_laa (s : State) : (beginStep s).laa = s.laa := by rw [beginStep_eq]

@[simp] theorem beginStep_lpl (s : State) : (beginStep s).lpl = s.lpl := by rw [beginStep_eq]

/-- A fetch inside memory, or at its tail, adds nothing to the step's beginning (20_memory R35). -/
theorem fetched_in_range {s : State} (h : s.pc.toNat < s.layout.memSize) :
    fetched s = { s with reports := [], iis := iisAfterBegin s } := by
  rw [fetched, fetchWord_snd_in_range (by rwa [beginStep_layout]), beginStep_eq]

/-- A fetch beyond memory adds its report (40_step_halt R67). -/
theorem fetched_out_of_range {s : State} (h : s.layout.memSize ≤ s.pc.toNat) :
    fetched s = raiseReport { s with reports := [], iis := iisAfterBegin s } (.outOfRangeRead s.pc) := by
  rw [fetched, fetchWord_snd_out_of_range (by rwa [beginStep_layout]), beginStep_eq]

/-! ### The four outcomes of a step, each from its condition -/

theorem stepWith_of_halted (p : Params) {s : State} (h : s.halted = true) :
    stepWith p s = .next (beginOperation s) := by
  simp [stepWith, h]

theorem stepWith_of_misaligned (p : Params) {s : State} (h : s.halted = false) (hpc : s.pc.toNat % 4 ≠ 0) :
    stepWith p s = .fault (.misalignedPc s.pc) := by
  simp [stepWith, h, hpc]

theorem stepWith_of_decode {p : Params} {s : State} {i : Instr} (h : s.halted = false) (hpc : s.pc.toNat % 4 = 0)
    (hdecode : decodeWordWith p.opc (fetchWord s s.pc).1 = some i) : stepWith p s = exec i (fetched s) := by
  rw [← fetchWord_beginStep] at hdecode
  rw [stepWith, if_neg (by simp [h]), if_neg (by simp [hpc]), hdecode]

theorem stepWith_of_invalid {p : Params} {s : State} (h : s.halted = false) (hpc : s.pc.toNat % 4 = 0)
    (hdecode : decodeWordWith p.opc (fetchWord s s.pc).1 = none) :
    stepWith p s = .next (onInvalidOpcode (fetched s) (fetchWord s s.pc).1) := by
  rw [← fetchWord_beginStep] at hdecode ⊢
  rw [stepWith, if_neg (by simp [h]), if_neg (by simp [hpc]), hdecode]

theorem step_of_halted {s : State} (h : s.halted = true) : step s = .next (beginOperation s) :=
  stepWith_of_halted defaultParams h

theorem step_of_misaligned {s : State} (h : s.halted = false) (hpc : s.pc.toNat % 4 ≠ 0) :
    step s = .fault (.misalignedPc s.pc) :=
  stepWith_of_misaligned defaultParams h hpc

theorem step_of_decode {s : State} {i : Instr} (h : s.halted = false) (hpc : s.pc.toNat % 4 = 0)
    (hdecode : decodeWord (fetchWord s s.pc).1 = some i) : step s = exec i (fetched s) :=
  stepWith_of_decode (p := defaultParams) h hpc hdecode

theorem step_of_invalid {s : State} (h : s.halted = false) (hpc : s.pc.toNat % 4 = 0)
    (hdecode : decodeWord (fetchWord s s.pc).1 = none) :
    step s = .next (onInvalidOpcode (fetched s) (fetchWord s s.pc).1) :=
  stepWith_of_invalid (p := defaultParams) h hpc hdecode

/-! ### Reports -/

/-- From `s` to `t` exactly the reports `rs` were added, and each set the sticky mark (60_exceptions R121, D26). -/
def ReportsAdded (s t : State) (rs : List Report) : Prop :=
  t.reports = s.reports ++ rs ∧ t.faulted = (s.faulted || !rs.isEmpty)

theorem ReportsAdded.nil {s t : State} (hr : t.reports = s.reports) (hf : t.faulted = s.faulted) :
    ReportsAdded s t [] := by simp [ReportsAdded, hr, hf]

theorem reportsAdded_raiseReport (s : State) (r : Report) : ReportsAdded s (raiseReport s r) [r] := by
  simp [ReportsAdded]

theorem ReportsAdded.trans {s t u : State} {rs qs : List Report} (h : ReportsAdded s t rs) (k : ReportsAdded t u qs) :
    ReportsAdded s u (rs ++ qs) := by
  obtain ⟨hr, hf⟩ := h
  obtain ⟨kr, kf⟩ := k
  refine ⟨by simp [kr, hr], ?_⟩
  rw [kf, hf]
  cases rs <;> simp

/-- A state whose pending reports are marked stays so when reports are added. -/
theorem ReportsAdded.marked {s t : State} {rs : List Report} (h : ReportsAdded s t rs)
    (hs : s.reports ≠ [] → s.faulted = true) : t.reports ≠ [] → t.faulted = true := by
  obtain ⟨hr, hf⟩ := h
  cases rs with
  | nil => simpa [hr, hf] using hs
  | cons r rs => simp [hf]

/-- Over a whole operation, which begins with no report, the mark is set exactly by a report (D26). -/
theorem ReportsAdded.faulted_iff {s t : State} {rs : List Report} (h : ReportsAdded (beginOperation s) t rs) :
    t.faulted = true ↔ s.faulted = true ∨ t.reports ≠ [] := by
  obtain ⟨hr, hf⟩ := h
  simp [hr, hf]

theorem reportsAdded_memRead (s : State) (a : Word) : ∃ rs, rs.length ≤ 1 ∧ ReportsAdded s (memRead s a).2 rs := by
  by_cases h : a.toNat < s.layout.memSize
  · exact ⟨[], by simp, by rw [memRead_snd_in_range h]; exact .nil rfl rfl⟩
  · exact ⟨[.outOfRangeRead a], by simp,
      by rw [memRead_snd_out_of_range (Nat.not_lt.1 h)]; exact reportsAdded_raiseReport s _⟩

theorem reportsAdded_memWrite (s : State) (a v : Word) : ∃ rs, rs.length ≤ 1 ∧ ReportsAdded s (memWrite s a v) rs := by
  by_cases h : a.toNat + 4 ≤ s.layout.memSize
  · exact ⟨[], by simp, by rw [memWrite_in_range h]; exact .nil rfl rfl⟩
  · exact ⟨[.outOfRangeWrite a], by simp,
      by rw [memWrite_out_of_range (Nat.not_le.1 h)]; exact reportsAdded_raiseReport s _⟩

/-- An instruction raises at most one report (60_exceptions R122). -/
theorem execEffect_reports {s t : State} (h : ExecEffect s t) : ∃ rs, rs.length ≤ 1 ∧ ReportsAdded s t rs := by
  cases h with
  | halt => exact ⟨[], by simp, .nil rfl rfl⟩
  | retire rc v => exact ⟨[], by simp, .nil rfl rfl⟩
  | load a rc => exact reportsAdded_memRead s a
  | store a rc => exact reportsAdded_memWrite s a _
  | jump ra rc => exact ⟨[], by simp, .nil rfl rfl⟩
  | branch taken lit rc => exact ⟨[], by simp, .nil (by simp) (by simp)⟩
  | divideByZero => exact ⟨[.divideByZero], by simp, reportsAdded_raiseReport s .divideByZero⟩

/-- The state on which the arm runs has no report but that of a fetch beyond memory (40_step_halt R62, R67). -/
theorem fetched_reports (s : State) : ∃ rs, ReportsAdded (beginOperation s) (fetched s) rs ∧
    (s.pc.toNat < s.layout.memSize → rs = []) := by
  by_cases h : s.pc.toNat < s.layout.memSize
  · refine ⟨[], ?_, fun _ => rfl⟩
    rw [fetched_in_range h]
    exact .nil rfl rfl
  · refine ⟨[.outOfRangeRead s.pc], ?_, fun h' => absurd h' h⟩
    rw [fetched_out_of_range (Nat.not_lt.1 h)]
    exact reportsAdded_raiseReport _ _

/-! ### Frames and the invariant over one instruction -/

theorem execEffect_keeps_layout {s t : State} (h : ExecEffect s t) : t.layout = s.layout := by
  cases h <;> simp [loadInto, storeFrom]

theorem execEffect_keeps_lpl {s t : State} (h : ExecEffect s t) : t.lpl = s.lpl := by
  cases h <;> simp [loadInto, storeFrom]

/-- What an instruction can do to memory: nothing, or one word write (41_load_store R70, R71). -/
theorem execEffect_mem {s t : State} (h : ExecEffect s t) : t.mem = s.mem ∨ ∃ a v, t.mem = (memWrite s a v).mem := by
  cases h with
  | store a rc => exact .inr ⟨a, readReg s rc, rfl⟩
  | halt => exact .inl rfl
  | retire rc v => exact .inl rfl
  | load a rc => exact .inl (memRead_snd_mem s a)
  | jump ra rc => exact .inl rfl
  | branch taken lit rc => exact .inl (branchIf_mem _ _ _)
  | divideByZero => exact .inl rfl

theorem add_four_aligned {a : Word} (h : a.toNat % 4 = 0) : (a + 4).toNat % 4 = 0 := by bv_omega

theorem pcRelative_aligned {s : State} (h : s.pc.toNat % 4 = 0) (lit : Lit) : (pcRelative s lit).toNat % 4 = 0 := by
  unfold pcRelative
  generalize sext16 lit = x
  bv_omega

/-- A jump's target is the register's value rounded down to a multiple of 4 (42_control_transfer R75). -/
theorem toNat_jumpTarget (s : State) (ra : RegIdx) : (jumpTarget s ra).toNat = 4 * ((readReg s ra).toNat / 4) := by
  have hmask : jumpTarget s ra = readReg s ra >>> 2 <<< 2 := by
    unfold jumpTarget
    generalize readReg s ra = x
    have hall : ∀ k : Fin 32, (0xFFFFFFFC#32).getLsbD k = decide (2 ≤ k.val) := by decide
    apply BitVec.eq_of_getLsbD_eq
    intro j hj
    have hbit := hall ⟨j, hj⟩
    simp only at hbit
    simp only [BitVec.getLsbD_and, BitVec.getLsbD_shiftLeft, BitVec.getLsbD_ushiftRight]
    grind
  rw [hmask]
  simp [BitVec.toNat_shiftLeft, BitVec.toNat_ushiftRight, Nat.shiftLeft_eq, Nat.shiftRight_eq_div_pow]
  omega

/-- Every instruction leaves `pc` a multiple of 4 (10_state R14). -/
theorem execEffect_keeps_pc_aligned {s t : State} (h : ExecEffect s t) (hs : s.pc.toNat % 4 = 0) :
    t.pc.toNat % 4 = 0 := by
  cases h with
  | halt => exact hs
  | retire rc v => exact add_four_aligned hs
  | load a rc => simpa [loadInto] using add_four_aligned hs
  | store a rc => simpa [storeFrom] using add_four_aligned hs
  | jump ra rc =>
    show (jumpTarget (writeLink s rc) ra).toNat % 4 = 0
    rw [toNat_jumpTarget]
    omega
  | branch taken lit rc =>
    rw [branchIf_pc]
    cases taken with
    | false => exact add_four_aligned hs
    | true => exact pcRelative_aligned (s := writeLink s rc) hs lit
  | divideByZero => exact hs

theorem execEffect_keeps_inv {s t : State} (h : ExecEffect s t) (hs : s.Inv) : t.Inv := by
  have hlayout := execEffect_keeps_layout h
  obtain ⟨rs, -, hrs⟩ := execEffect_reports h
  refine ⟨hlayout ▸ hs.layout_wf, ?_, ?_, ?_, execEffect_keeps_pc_aligned h hs.pc_aligned, hrs.marked hs.reports_marked⟩
  · obtain hmem | ⟨a, v, hmem⟩ := execEffect_mem h <;> rw [hmem]
    · exact hs.mem_wf
    · exact memWrite_wf hs.mem_wf a v
  · obtain hmem | ⟨a, v, hmem⟩ := execEffect_mem h <;> rw [hmem, hlayout]
    · exact hs.mem_below
    · exact memWrite_below hs.mem_below a v
  · rw [hlayout, execEffect_keeps_lpl h]
    exact hs.lpl_le

/-! ### The invariant over one step and over one operation of any agent -/

/-- The step's beginning and its fetch keep the invariant. -/
theorem fetched_keeps_inv {s : State} (hs : s.Inv) : (fetched s).Inv := by
  obtain ⟨rs, hrs, -⟩ := fetched_reports s
  constructor
  · simpa using hs.layout_wf
  · simpa using hs.mem_wf
  · simpa using hs.mem_below
  · simpa using hs.lpl_le
  · simpa using hs.pc_aligned
  · exact hrs.marked (by simp)

/-- A report added to a state leaves the invariant. -/
theorem raiseReport_keeps_inv {s : State} (hs : s.Inv) (r : Report) : (raiseReport s r).Inv :=
  ⟨hs.layout_wf, hs.mem_wf, hs.mem_below, hs.lpl_le, hs.pc_aligned, fun _ => rfl⟩

theorem beginOperation_keeps_inv {s : State} (hs : s.Inv) : (beginOperation s).Inv :=
  ⟨hs.layout_wf, hs.mem_wf, hs.mem_below, hs.lpl_le, hs.pc_aligned, fun h => absurd rfl h⟩

/-- From a state that meets the invariant a step answers, under any opcode map, with one that meets it. -/
theorem stepWith_keeps_inv (p : Params) {s : State} (hs : s.Inv) : ∃ t, stepWith p s = .next t ∧ t.Inv := by
  rcases stepWith_cases p s with ⟨-, h⟩ | ⟨-, hmis, -⟩ | ⟨-, -, -, t, -, -, h, heffect⟩ | ⟨-, -, -, h⟩
  · exact ⟨_, h, beginOperation_keeps_inv hs⟩
  · exact absurd hs.pc_aligned hmis
  · exact ⟨t, h, execEffect_keeps_inv heffect (fetched_keeps_inv hs)⟩
  · exact ⟨_, h, raiseReport_keeps_inv (fetched_keeps_inv hs) _⟩

/-- Settles O43: the step's beginning keeps the invariant, and so does each case of `ExecEffect`. -/
theorem stepKeepsInv : Obligations.StepKeepsInv := by
  unfold Obligations.StepKeepsInv
  intro s t hs hstep
  obtain ⟨u, hu, hinv⟩ := stepWith_keeps_inv defaultParams hs
  rw [step, hu] at hstep
  obtain rfl : u = t := by simpa using hstep
  exact hinv

/-- Well-formedness of a layout, its conditions written out (00_scope R6). -/
theorem layout_wf_iff (l : Layout) :
    l.wf = true ↔ l.progSize % 4 = 0 ∧ l.vidSize % 4 = 0 ∧ l.kernSize % 4 = 0 ∧ 400 ≤ l.kernSize ∧
      l.progSize + l.vidSize + l.kernSize ≤ 2147483648 := by
  simp only [Layout.wf, Bool.and_eq_true, beq_iff_eq, decide_eq_true_eq, and_assoc]
  exact Iff.rfl

/-- The reset state of a well-formed layout meets the invariant (70_reset R146). -/
theorem resetWith_inv {l : Layout} (h : l.wf = true) : (State.resetWith l).Inv :=
  ⟨h, rfl, rfl, Nat.zero_le _, rfl, fun hne => absurd rfl hne⟩

/-- Settles O44: the reset values meet each field of the invariant, and the default layout is well formed. -/
theorem resetMeetsInv : Obligations.ResetMeetsInv := by
  unfold Obligations.ResetMeetsInv
  exact ⟨fun l h => resetWith_inv h, resetWith_inv (by decide)⟩

theorem resetMachine_of_wf {l : Layout} (h : l.wf = true) : resetMachine l = .next (State.resetWith l) := if_pos h

theorem memWrite_keeps_inv {s : State} (hs : s.Inv) (a v : Word) : (memWrite s a v).Inv := by
  obtain ⟨rs, -, hrs⟩ := reportsAdded_memWrite s a v
  constructor
  · simpa using hs.layout_wf
  · exact memWrite_wf hs.mem_wf a v
  · simpa using memWrite_below hs.mem_below a v
  · simpa using hs.lpl_le
  · simpa using hs.pc_aligned
  · exact hrs.marked hs.reports_marked

/-- The handler's entry point is a multiple of 4 in a well-formed layout. -/
theorem saveContext_keeps_inv {s : State} (hs : s.Inv) : (saveContext s).Inv := by
  have haligned : (BitVec.ofNat 32 (handlerEntry s.layout)).toNat % 4 = 0 := by
    obtain ⟨hp, hv, -, -, -⟩ := (layout_wf_iff s.layout).1 hs.layout_wf
    have hentry : handlerEntry s.layout % 4 = 0 := by
      simp only [handlerEntry, Layout.kernelBase, Config.handlerOffset]
      omega
    rw [BitVec.toNat_ofNat]
    omega
  exact ⟨hs.layout_wf, hs.mem_wf, hs.mem_below, hs.lpl_le, haligned, hs.reports_marked⟩

/-- The metadata writes keep the invariant, whatever the addresses: a write out of range is only reported. -/
theorem writeIrqMetadata_keeps_inv (p : Params) {s : State} (hs : s.Inv) (ty : IrqType) (key : Word) :
    (writeIrqMetadata p s ty key).Inv := by
  cases ty with
  | keyDown => exact memWrite_keeps_inv (memWrite_keeps_inv hs _ _) _ _
  | keyUp => exact memWrite_keeps_inv hs _ _

theorem raiseInterruptWith_keeps_inv (p : Params) {s : State} (hs : s.Inv) (ty : IrqType) (key : Word) :
    (raiseInterruptWith p s ty key).Inv := by
  have hbegin := beginOperation_keeps_inv hs
  unfold raiseInterruptWith
  split
  · exact hbegin
  · exact writeIrqMetadata_keeps_inv p (memWrite_keeps_inv (saveContext_keeps_inv hbegin) _ _) ty key

theorem loadProgram_keeps_inv {s : State} (hs : s.Inv) (bytes : List Byte) : (loadProgram s bytes).Inv := by
  have hbegin := beginOperation_keeps_inv hs
  by_cases h : bytes.length ≤ s.layout.progSize
  · have hrange : 0 + bytes.length ≤ s.layout.memSize := by simp only [Layout.memSize]; omega
    rw [loadProgram_fits h]
    exact ⟨hs.layout_wf, Memory.wf_writeBytes hs.mem_wf 0 bytes, Memory.below_writeBytes hs.mem_below bytes hrange, h,
      hs.pc_aligned, hbegin.reports_marked⟩
  · rw [loadProgram_too_large (Nat.not_le.1 h)]
    exact raiseReport_keeps_inv hbegin _

theorem loadHandler_keeps_inv {s : State} (hs : s.Inv) (bytes : List Byte) : (loadHandler s bytes).Inv := by
  have hbegin := beginOperation_keeps_inv hs
  by_cases h : bytes.length + Config.handlerOffset ≤ s.layout.kernSize
  · have hrange : handlerEntry s.layout + bytes.length ≤ s.layout.memSize := by
      simp only [handlerEntry, Layout.kernelBase, Layout.memSize]
      omega
    rw [loadHandler_fits h]
    exact ⟨hs.layout_wf, Memory.wf_writeBytes hs.mem_wf _ bytes, Memory.below_writeBytes hs.mem_below bytes hrange,
      hs.lpl_le, hs.pc_aligned, hbegin.reports_marked⟩
  · rw [loadHandler_too_large (Nat.not_le.1 h)]
    exact raiseReport_keeps_inv hbegin _

/-- A read accessor changes nothing of the machine, and marks what it reports (10_state R23). -/
theorem recordReports_keeps_inv {s : State} (hs : s.Inv) (rs : List Report) : (recordReports s rs).Inv := by
  refine ⟨hs.layout_wf, hs.mem_wf, hs.mem_below, hs.lpl_le, hs.pc_aligned, fun hne => ?_⟩
  have hrs : rs ≠ [] := hne
  simp [hrs]

/-- The step lemma of every agent: an operation whose reset asks for a well-formed layout answers from a state that
meets the invariant, with one that meets it (00_scope R9). -/
theorem perform_keeps_inv {o : Operation} {s : State} (hs : s.Inv) (hwf : ∀ l, o = .reset l → l.wf = true) :
    ∃ t, perform o s = .next t ∧ t.Inv := by
  cases o with
  | reset l => exact ⟨_, resetMachine_of_wf (hwf l rfl), resetWith_inv (hwf l rfl)⟩
  | loadProgram bytes => exact ⟨_, rfl, loadProgram_keeps_inv hs bytes⟩
  | loadHandler bytes => exact ⟨_, rfl, loadHandler_keeps_inv hs bytes⟩
  | step => exact stepWith_keeps_inv defaultParams hs
  | raiseInterrupt ty key => exact ⟨_, rfl, raiseInterruptWith_keeps_inv defaultParams hs ty key⟩
  | readRegister i => exact ⟨_, rfl, recordReports_keeps_inv hs _⟩
  | readMemoryWord a => exact ⟨_, rfl, recordReports_keeps_inv hs _⟩
  | readPc => exact ⟨_, rfl, recordReports_keeps_inv hs _⟩
  | readHalted => exact ⟨_, rfl, recordReports_keeps_inv hs _⟩
  | readLastAccessed => exact ⟨_, rfl, recordReports_keeps_inv hs _⟩
  | disassemble w => exact ⟨s, rfl, hs⟩

/-- Settles O45, by induction on the run: the first operation answers with a state that meets the invariant. -/
theorem everyInterleavingRunsOn : Obligations.EveryInterleavingRunsOn := by
  unfold Obligations.EveryInterleavingRunsOn
  intro os
  induction os with
  | nil => exact fun s hs _ => ⟨s, rfl, hs⟩
  | cons o os ih =>
    intro s hs hwf
    obtain ⟨t, ht, hinv⟩ := perform_keeps_inv (o := o) hs (fun l hl => hwf l (by simp [hl]))
    obtain ⟨u, hu, huinv⟩ := ih t hinv (fun l hl => hwf l (List.mem_cons_of_mem o hl))
    exact ⟨u, by rw [performAll_cons, ht]; exact hu, huinv⟩

end Sys2Proof.Proofs
end

section
/-!
What no instruction reads (10_state R12, R17, R18, R22): two states that agree on everything else take every instruction
to two such states. A relational invariant, shown for each state operation and from these for each instruction.
-/
namespace Sys2Proof.Proofs

open Sys2Proof.Machine

/-- No instruction tells the two states apart, and the same reports are pending. -/
def Agree (s t : State) : Prop := SameVisible s t ∧ t.reports = s.reports

/-- Two outcomes are next states that agree. -/
def OutcomesAgree (o o' : Host.Outcome State Fault Refusal) : Prop :=
  ∃ t t', o = .next t ∧ o' = .next t' ∧ Agree t t'

theorem OutcomesAgree.next {t t' : State} (h : Agree t t') : OutcomesAgree (.next t) (.next t') :=
  ⟨t, t', rfl, rfl, h⟩

section
variable {s t : State} (h : Agree s t)
include h

theorem Agree.pc : t.pc = s.pc := by
  obtain ⟨⟨hpc, -⟩, -⟩ := h
  exact hpc

theorem Agree.layout : t.layout = s.layout := by
  obtain ⟨⟨-, -, -, hlayout, -⟩, -⟩ := h
  exact hlayout

theorem Agree.mem : t.mem = s.mem := by
  obtain ⟨⟨-, -, -, -, hmem, -⟩, -⟩ := h
  exact hmem

/-- The read port hides slot 31 (10_state R11). -/
theorem Agree.readReg (i : RegIdx) : readReg t i = readReg s i := by
  obtain ⟨⟨-, -, -, -, -, hslots⟩, -⟩ := h
  rw [readReg_eq, readReg_eq]
  by_cases hi : i = 31
  · rw [if_pos hi, if_pos hi]
  · rw [if_neg hi, if_neg hi, hslots i hi]

theorem Agree.wordAt (a : Nat) : wordAt t a = wordAt s a := wordAt_congr h.mem h.layout a

theorem Agree.baseOffset (ra : RegIdx) (lit : Lit) : baseOffset t ra lit = baseOffset s ra lit := by
  rw [Machine.baseOffset, Machine.baseOffset, h.readReg]

theorem Agree.pcRelative (lit : Lit) : pcRelative t lit = pcRelative s lit := by
  rw [Machine.pcRelative, Machine.pcRelative, h.pc]

/-! The state operations keep the agreement. -/

theorem Agree.setPc (a : Word) : Agree { s with pc := a } { t with pc := a } := by
  obtain ⟨⟨-, hrest⟩, hreports⟩ := h
  exact ⟨⟨rfl, hrest⟩, hreports⟩

theorem Agree.setHalted : Agree { s with halted := true } { t with halted := true } := by
  obtain ⟨⟨hpc, -, hrest⟩, hreports⟩ := h
  exact ⟨⟨hpc, rfl, hrest⟩, hreports⟩

theorem Agree.setLaa (a : Word) : Agree { s with laa := a } { t with laa := a } := h

theorem Agree.setMem (m : Memory) : Agree { s with mem := m } { t with mem := m } := by
  obtain ⟨⟨hpc, hhalted, hiis, hlayout, -, hslots⟩, hreports⟩ := h
  exact ⟨⟨hpc, hhalted, hiis, hlayout, rfl, hslots⟩, hreports⟩

theorem Agree.raiseReport (r : Report) : Agree (raiseReport s r) (raiseReport t r) := by
  obtain ⟨hvisible, hreports⟩ := h
  exact ⟨hvisible, by rw [raiseReport_reports, raiseReport_reports, hreports]⟩

theorem Agree.writeReg (i : RegIdx) (v : Word) : Agree (writeReg s i v) (writeReg t i v) := by
  obtain ⟨⟨hpc, hhalted, hiis, hlayout, hmem, hslots⟩, hreports⟩ := h
  exact ⟨⟨hpc, hhalted, hiis, hlayout, hmem, fun j hj => by rw [slot_writeReg, slot_writeReg, hslots j hj]⟩, hreports⟩

theorem Agree.advance : Agree (advance s) (advance t) := by
  rw [Machine.advance, Machine.advance, h.pc]
  exact h.setPc _

theorem Agree.retire (rc : RegIdx) (v : Word) : Agree (retire s rc v) (retire t rc v) :=
  (h.writeReg rc v).advance

theorem Agree.writeLink (rc : RegIdx) : Agree (writeLink s rc) (writeLink t rc) := by
  rw [Machine.writeLink, Machine.writeLink, h.pc]
  exact h.writeReg rc _

theorem Agree.fetchWord (a : Word) : Agree (fetchWord s a).2 (fetchWord t a).2 := by
  by_cases hin : a.toNat < s.layout.memSize
  · rwa [fetchWord_snd_in_range hin, fetchWord_snd_in_range (h.layout ▸ hin)]
  · have hout := Nat.not_lt.1 hin
    rw [fetchWord_snd_out_of_range hout, fetchWord_snd_out_of_range (h.layout ▸ hout)]
    exact h.raiseReport _

theorem Agree.memRead (a : Word) : Agree (memRead s a).2 (memRead t a).2 := by
  by_cases hin : a.toNat < s.layout.memSize
  · rw [memRead_snd_in_range hin, memRead_snd_in_range (h.layout ▸ hin)]
    exact h.setLaa a
  · have hout := Nat.not_lt.1 hin
    rw [memRead_snd_out_of_range hout, memRead_snd_out_of_range (h.layout ▸ hout)]
    exact h.raiseReport _

theorem Agree.memWrite (a v : Word) : Agree (memWrite s a v) (memWrite t a v) := by
  by_cases hin : a.toNat + 4 ≤ s.layout.memSize
  · rw [memWrite_in_range hin, memWrite_in_range (h.layout ▸ hin), h.mem]
    exact h.setMem (s.mem.writeBytes a.toNat (wordBytes v))
  · have hout := Nat.not_le.1 hin
    rw [memWrite_out_of_range hout, memWrite_out_of_range (h.layout ▸ hout)]
    exact h.raiseReport _

theorem Agree.loadInto (a : Word) (rc : RegIdx) : Agree (loadInto s a rc) (loadInto t a rc) := by
  rw [Machine.loadInto, Machine.loadInto, memRead_fst, memRead_fst, h.wordAt]
  exact (h.memRead a).retire rc _

theorem Agree.storeFrom (a : Word) (rc : RegIdx) : Agree (storeFrom s a rc) (storeFrom t a rc) := by
  rw [Machine.storeFrom, Machine.storeFrom, h.readReg]
  exact (h.memWrite a _).advance

theorem Agree.branchIf (taken : Bool) (lit : Lit) : Agree (branchIf taken lit s) (branchIf taken lit t) := by
  cases taken with
  | false => exact h.advance
  | true =>
    show Agree { s with pc := Machine.pcRelative s lit } { t with pc := Machine.pcRelative t lit }
    rw [h.pcRelative]
    exact h.setPc _

/-! And so do the shared parts of the instructions' meanings. -/

theorem Agree.aluRegister (op : Word → Word → Word) (ra rb rc : RegIdx) :
    OutcomesAgree (aluRegister op ra rb rc s) (aluRegister op ra rb rc t) := by
  rw [Machine.aluRegister, Machine.aluRegister, h.readReg, h.readReg]
  exact .next (h.retire rc _)

theorem Agree.aluLiteral (op : Word → Word → Word) (ra : RegIdx) (lit : Lit) (rc : RegIdx) :
    OutcomesAgree (aluLiteral op ra lit rc s) (aluLiteral op ra lit rc t) := by
  rw [Machine.aluLiteral, Machine.aluLiteral, h.readReg]
  exact .next (h.retire rc _)

theorem Agree.divideInto (a b : Word) (rc : RegIdx) : OutcomesAgree (divideInto a b rc s) (divideInto a b rc t) := by
  unfold Machine.divideInto
  split
  · exact .next (h.raiseReport .divideByZero).setHalted
  · exact .next (h.retire rc _)

theorem Agree.execLdr (lit : Lit) (rc : RegIdx) : OutcomesAgree (execLdr lit rc s) (execLdr lit rc t) := by
  unfold Machine.execLdr ldrStores
  rw [h.pcRelative, h.layout]
  split
  · exact .next (h.storeFrom _ rc)
  · exact .next (h.loadInto _ rc)

/-- Every instruction takes states that agree to states that agree. -/
theorem Agree.exec (i : Instr) : OutcomesAgree (exec i s) (exec i t) := by
  cases i
  case halt => exact .next h.setHalted
  case ld ra lit rc =>
    simp only [Machine.exec, execLd, h.baseOffset]
    exact .next (h.loadInto _ rc)
  case st rc lit ra =>
    simp only [Machine.exec, execSt, h.baseOffset]
    exact .next (h.storeFrom _ rc)
  case jmp ra rc =>
    simp only [Machine.exec, execJmp, jumpTarget, (h.writeLink rc).readReg]
    exact .next ((h.writeLink rc).setPc _)
  case beq ra lit rc =>
    simp only [Machine.exec, execBeq, (h.writeLink rc).readReg]
    exact .next ((h.writeLink rc).branchIf _ lit)
  case bne ra lit rc =>
    simp only [Machine.exec, execBne, (h.writeLink rc).readReg]
    exact .next ((h.writeLink rc).branchIf _ lit)
  case ldr lit rc => exact h.execLdr lit rc
  case div ra rb rc =>
    simp only [Machine.exec, execDiv, h.readReg]
    exact h.divideInto _ _ rc
  case divc ra lit rc =>
    simp only [Machine.exec, execDivc, h.readReg]
    exact h.divideInto _ _ rc
  case add | sub | mul | cmpeq | cmplt | cmple | and | or | xor | shl | shr | sra => exact h.aluRegister _ _ _ _
  case addc | subc | mulc | cmpeqc | cmpltc | cmplec | andc | orc | xorc | shlc | shrc | srac =>
    exact h.aluLiteral _ _ _ _

end

/-- After the step's beginning and fetch, states that differed only in what no instruction reads agree: the report sets
were emptied, and `pc`, `P` and memory decide the rest. -/
theorem fetched_agree {s t : State} (h : SameVisible s t) : Agree (fetched s) (fetched t) := by
  obtain ⟨hpc, hhalted, hiis, hlayout, hmem, hslots⟩ := h
  have hbegin : Agree (beginStep s) (beginStep t) := by
    rw [beginStep_eq, beginStep_eq]
    refine ⟨⟨hpc, hhalted, ?_, hlayout, hmem, hslots⟩, rfl⟩
    simp only [iisAfterBegin, hpc, hiis, hlayout]
  simp only [fetched, hpc]
  exact hbegin.fetchWord s.pc

/-- A step does the same from both states, up to what no instruction reads. -/
theorem step_agree {s t : State} (h : SameVisible s t) :
    OutcomesAgree (step s) (step t) ∨ ∃ f, step s = .fault f ∧ step t = .fault f := by
  have hagree := fetched_agree h
  obtain ⟨hpc, hhalted, hiis, hlayout, hmem, hslots⟩ := h
  have hword : (fetchWord t t.pc).1 = (fetchWord s s.pc).1 := by
    rw [hpc]
    exact wordAt_congr hmem hlayout _
  rcases step_cases s with ⟨hh, hs⟩ | ⟨hh, hmis, hs⟩ | ⟨hh, hal, i, -, hdecode, -, -, -⟩ | ⟨hh, hal, hdecode, hs⟩
  · rw [hs, step_of_halted (hhalted.trans hh)]
    exact .inl (.next ⟨⟨hpc, hhalted, hiis, hlayout, hmem, hslots⟩, rfl⟩)
  · refine .inr ⟨_, hs, ?_⟩
    rw [step_of_misaligned (hhalted.trans hh) (by rwa [hpc]), hpc]
  · rw [step_of_decode hh hal hdecode, step_of_decode (hhalted.trans hh) (by rwa [hpc]) (by rwa [hword])]
    exact .inl (hagree.exec i)
  · rw [hs, step_of_invalid (hhalted.trans hh) (by rwa [hpc]) (by rwa [hword]), hword]
    exact .inl (.next (hagree.raiseReport _))

/-- Settles O46: both states decode the same word, and the instruction, the default row and a halted machine's no-op each
keep the agreement. -/
theorem unreadStateDoesNotInfluenceAStep : Obligations.UnreadStateDoesNotInfluenceAStep := by
  unfold Obligations.UnreadStateDoesNotInfluenceAStep
  intro s s' h
  rcases step_agree h with ⟨t, t', hs, hs', hvisible, hreports⟩ | ⟨f, hs, hs'⟩
  · refine ⟨fun u hu => ?_, fun f hf => ?_⟩
    · obtain rfl : t = u := by simpa [hs] using hu
      exact ⟨t', hs', hvisible, hreports⟩
    · simp [hs] at hf
  · refine ⟨fun u hu => ?_, fun g hg => ?_⟩
    · simp [hs] at hu
    · rw [hs', ← hs, hg]

end Sys2Proof.Proofs
end

section
/-!
The literal, the read port and the memory primitives (30_encoding R48; 10_state R11; 20_memory R30 to R35, R44).
-/
namespace Sys2Proof.Proofs

open Sys2Proof.Machine

/-! ### The literal -/

/-- Bit by bit, the extended literal repeats bit 15 above it (30_encoding R48). -/
theorem getLsbD_sext16 (lit : Lit) {k : Nat} (hk : k < 32) : (sext16 lit).getLsbD k = lit.getLsbD (min k 15) := by
  simp only [sext16, BitVec.getLsbD_signExtend, hk, decide_true, Bool.true_and, BitVec.msb_eq_getLsbD_last]
  grind

/-- The literal as a number keeps its signed value (30_encoding R48). -/
theorem toInt_sext16 (lit : Lit) : (sext16 lit).toInt = lit.toInt :=
  BitVec.toInt_signExtend_of_le (by omega)

/-- The literal's own bits are the low bits of the extended one. -/
theorem extractLsb'_sext16 (lit : Lit) : (sext16 lit).extractLsb' 0 16 = lit := by
  apply BitVec.eq_of_getLsbD_eq
  intro j hj
  rw [BitVec.getLsbD_extractLsb', getLsbD_sext16 lit (by omega)]
  grind

/-- Settles O6: the first two clauses bit by bit; bit 15 is the one repeated above the field. -/
theorem literalIsSignExtended : Obligations.LiteralIsSignExtended := by
  unfold Obligations.LiteralIsSignExtended
  have hmask : ∀ k : Fin 32, (0xFFFF0000#32).getLsbD k = decide (16 ≤ k.val) := by decide
  intro lit
  refine ⟨fun hset => ?_, fun hclear => ?_, by rw [extractLsb'_sext16], toInt_sext16 lit⟩
  · apply BitVec.eq_of_getLsbD_eq
    intro j hj
    have hbit := hmask ⟨j, hj⟩
    rw [getLsbD_sext16 lit hj, BitVec.getLsbD_or, BitVec.getLsbD_setWidth]
    grind
  · apply BitVec.eq_of_getLsbD_eq
    intro j hj
    rw [getLsbD_sext16 lit hj, BitVec.getLsbD_setWidth]
    grind

/-! ### The read port -/

/-- The accessor reads an index `0..31` through the read port (10_state R23). -/
theorem readRegister_toNat (s : State) (i : RegIdx) : readRegister s i.toNat = (readReg s i, []) := by
  rw [readRegister, if_pos i.isLt, BitVec.ofNat_toNat, BitVec.setWidth_eq]

/-- Settles O9: the port tests the index, not what the slot holds. -/
theorem registerReadPort : Obligations.RegisterReadPort := by
  unfold Obligations.RegisterReadPort
  exact fun s => ⟨fun i hi => if_neg hi, fun v => rfl, rfl, readRegister_toNat s⟩

/-! ### Reads, writes and fetches -/

/-- Settles O11: the value's bytes are `ReadsAs`, in every case. -/
theorem readAtAndPastTheEnd : Obligations.ReadAtAndPastTheEnd := by
  unfold Obligations.ReadAtAndPastTheEnd
  exact fun s a => ⟨fun hin _ => ⟨readsAs_wordAt s a.toNat, memRead_snd_in_range hin⟩,
    fun hout => ⟨wordAt_out_of_range hout, memRead_snd_out_of_range hout⟩⟩

/-- Settles O12: the bytes are `WordStored`, and the primitive's field lemmas give the rest. -/
theorem writeInRange : Obligations.WriteInRange := by
  unfold Obligations.WriteInRange
  intro s a v h
  refine ⟨wordStored_memWrite h v, ?_, memWrite_pc s a v, slot_congr (memWrite_regs s a v),
    ⟨memWrite_halted s a v, memWrite_iis s a v, memWrite_lpl s a v, memWrite_layout s a v⟩, ?_⟩ <;>
    rw [memWrite_in_range h]
  exact ⟨rfl, rfl⟩

/-- Settles O13: the report is all that is added. -/
theorem writeOutOfRange : Obligations.WriteOutOfRange := by
  unfold Obligations.WriteOutOfRange
  exact fun s a v h => memWrite_out_of_range h v

/-- The four bytes from `a`, once a word is stored there, are the word's bytes. -/
theorem overlayWord_self (a : Nat) (v : Word) (old : Nat → Byte) {k : Nat} (hk : k < 4) :
    overlayWord a v old (a + k) = v.extractLsb' (8 * k) 8 := by
  have hcases : k = 0 ∨ k = 1 ∨ k = 2 ∨ k = 3 := by omega
  rcases hcases with rfl | rfl | rfl | rfl <;> simp [overlayWord]

/-- Bytes outside the four from `a` are as before. -/
theorem overlayWord_of_ne {a b : Nat} (h : b < a ∨ a + 4 ≤ b) (v : Word) (old : Nat → Byte) :
    overlayWord a v old b = old b := by
  unfold overlayWord
  grind

/-- A word stored in range is read back (20_memory R44). -/
theorem wordAt_of_wordStored {s t : State} {a : Nat} {v : Word} (hstored : WordStored s t a v)
    (h : a + 4 ≤ t.layout.memSize) : wordAt t a = v := by
  refine readsAs_unique (readsAs_wordAt t a) fun k hk => ?_
  rw [if_pos (by omega), hstored, overlayWord_self a v _ hk]

theorem wordAt_memWrite_self {s : State} {a : Word} (h : a.toNat + 4 ≤ s.layout.memSize) (v : Word) :
    wordAt (memWrite s a v) a.toNat = v :=
  wordAt_of_wordStored (wordStored_memWrite h v) (by rwa [memWrite_layout])

/-- The bytes of a word whose lowest byte and upper three bytes are given. -/
theorem extractLsb'_append_byte (u : BitVec 24) (b : Byte) :
    (u ++ b).extractLsb' 0 8 = b ∧
    ∀ k, 1 ≤ k → k < 4 → (u ++ b).extractLsb' (8 * k) 8 = u.extractLsb' (8 * (k - 1)) 8 := by
  refine ⟨?_, fun k hlow hk => ?_⟩ <;> apply BitVec.eq_of_getLsbD_eq <;> intro j hj <;>
    simp only [BitVec.getLsbD_extractLsb', BitVec.getLsbD_append] <;> grind

/-- After two overlapping writes, the lowest byte is the first word's and the others the second's (20_memory R44). -/
theorem wordAt_overlapping_writes {s : State} {a : Word} (h : a.toNat + 5 ≤ s.layout.memSize)
    (hsize : s.layout.memSize ≤ 2 ^ 31) (v u : Word) :
    wordAt (memWrite (memWrite s a v) (a + 1) u) a.toNat = u.extractLsb' 0 24 ++ v.extractLsb' 0 8 := by
  have hnext : (a + 1).toNat = a.toNat + 1 := by bv_omega
  have hfirst : WordStored s (memWrite s a v) a.toNat v := wordStored_memWrite (by omega) v
  have hsecond : WordStored (memWrite s a v) (memWrite (memWrite s a v) (a + 1) u) (a.toNat + 1) u :=
    hnext ▸ wordStored_memWrite (by rw [memWrite_layout]; omega) u
  obtain ⟨hbyte, hupper⟩ := extractLsb'_append_byte (u.extractLsb' 0 24) (v.extractLsb' 0 8)
  refine readsAs_unique (readsAs_wordAt _ _) fun k hk => ?_
  rw [if_pos (by rw [memWrite_layout, memWrite_layout]; omega), hsecond]
  by_cases hzero : k = 0
  · subst hzero
    rw [overlayWord_of_ne (by omega), hfirst, overlayWord_self _ _ _ hk]
    exact hbyte
  · have hshift : a.toNat + k = a.toNat + 1 + (k - 1) := by omega
    rw [hshift, overlayWord_self _ _ _ (by omega), hupper k (by omega) hk]
    apply BitVec.eq_of_getLsbD_eq
    intro j hj
    simp only [BitVec.getLsbD_extractLsb']
    grind

/-- Settles O14: both values are read off the bytes that the writes stored, and a refused write only reports. -/
theorem writeThenRead : Obligations.WriteThenRead := by
  unfold Obligations.WriteThenRead
  refine ⟨fun s a v h => ⟨wordAt_memWrite_self h v, ?_⟩, fun s a v u h hsize => wordAt_overlapping_writes h hsize v u,
    fun s a v h => by rw [memWrite_out_of_range h]; rfl⟩
  rw [memRead_snd_in_range (by rw [memWrite_layout]; omega)]

/-- Settles O15: read and fetch differ in `laa` alone, in range and out of range. -/
theorem fetchReadsWithoutRecording : Obligations.FetchReadsWithoutRecording := by
  unfold Obligations.FetchReadsWithoutRecording
  intro s a
  by_cases h : a.toNat < s.layout.memSize
  · rw [fetchWord_snd_in_range h, memRead_snd_in_range h]
    exact ⟨rfl, rfl, rfl, rfl, by simp [readMemoryWord, h]⟩
  · rw [fetchWord_snd_out_of_range (Nat.not_lt.1 h), memRead_snd_out_of_range (Nat.not_lt.1 h)]
    exact ⟨rfl, rfl, rfl, rfl, by simp [readMemoryWord, h]⟩

end Sys2Proof.Proofs
end

section
/-!
HALT and the ALU (40_step_halt R65; 43_alu_register; 44_alu_literal): each operator as arithmetic on numbers, and the
two operand templates, which write that value and nothing else.
-/
namespace Sys2Proof.Proofs

open Sys2Proof.Machine

/-! ### The templates -/

/-- The register form writes the operator's value and nothing else (43_alu_register R79). -/
theorem aluRegister_done {op : Word → Word → Word} {s : State} {ra rb : RegIdx} {v : Word}
    (h : op (readReg s ra) (readReg s rb) = v) (rc : RegIdx) :
    ∃ t, aluRegister op ra rb rc s = .next t ∧ AluDone s t rc v :=
  ⟨_, rfl, h ▸ aluDone_retire s rc _⟩

/-- So does the literal form, with the extended literal as second operand (44_alu_literal R96). -/
theorem aluLiteral_done {op : Word → Word → Word} {s : State} {ra : RegIdx} {lit : Lit} {v : Word}
    (h : op (readReg s ra) (sext16 lit) = v) (rc : RegIdx) :
    ∃ t, aluLiteral op ra lit rc s = .next t ∧ AluDone s t rc v :=
  ⟨_, rfl, h ▸ aluDone_retire s rc _⟩

/-! ### Arithmetic (43_alu_register R80 to R82) -/

theorem aluAdd_eq (a b : Word) : aluAdd a b = trunc32 (a.toInt + b.toInt) := by
  rw [trunc32, BitVec.ofInt_add, BitVec.ofInt_toInt, BitVec.ofInt_toInt, aluAdd]

theorem aluSub_eq (a b : Word) : aluSub a b = trunc32 (a.toInt - b.toInt) := by
  rw [trunc32, Int.sub_eq_add_neg, BitVec.ofInt_add, BitVec.ofInt_neg, BitVec.ofInt_toInt, BitVec.ofInt_toInt, aluSub,
    BitVec.sub_eq_add_neg]

theorem aluMul_eq (a b : Word) : aluMul a b = trunc32 (a.toInt * b.toInt) := by
  rw [trunc32, BitVec.ofInt_mul, BitVec.ofInt_toInt, BitVec.ofInt_toInt, aluMul]

/-- Settles O17: each operator is the exact result narrowed, in the register template. -/
theorem registerArithmetic : Obligations.RegisterArithmetic := by
  unfold Obligations.RegisterArithmetic
  exact fun s ra rb rc => ⟨aluRegister_done (aluAdd_eq _ _) rc, aluRegister_done (aluSub_eq _ _) rc,
    aluRegister_done (aluMul_eq _ _) rc⟩

/-- Settles O22: the same operators in the literal template; the extended literal has the literal's value. -/
theorem literalArithmetic : Obligations.LiteralArithmetic := by
  unfold Obligations.LiteralArithmetic
  intro s ra lit rc
  rw [← toInt_sext16 lit]
  exact ⟨aluLiteral_done (aluAdd_eq _ _) rc, aluLiteral_done (aluSub_eq _ _) rc, aluLiteral_done (aluMul_eq _ _) rc⟩

/-! ### Comparisons (43_alu_register R84 to R86) -/

theorem aluCmpeq_eq (a b : Word) : aluCmpeq a b = if a.toInt = b.toInt then 1 else 0 := by
  simp [aluCmpeq, conditionWord, isEqual, BitVec.toInt_inj]

theorem aluCmplt_eq (a b : Word) : aluCmplt a b = if a.toInt < b.toInt then 1 else 0 := by
  simp [aluCmplt, conditionWord, isLess, BitVec.slt_eq_decide]

theorem aluCmple_eq (a b : Word) : aluCmple a b = if a.toInt ≤ b.toInt then 1 else 0 := by
  simp [aluCmple, conditionWord, isLessOrEqual, BitVec.sle_eq_decide]

/-- Settles O18: each condition is the comparison of signed values. -/
theorem registerComparisons : Obligations.RegisterComparisons := by
  unfold Obligations.RegisterComparisons
  exact fun s ra rb rc => ⟨aluRegister_done (aluCmpeq_eq _ _) rc, aluRegister_done (aluCmplt_eq _ _) rc,
    aluRegister_done (aluCmple_eq _ _) rc⟩

/-- Settles O23: the same comparisons, with the literal's signed value. -/
theorem literalComparisons : Obligations.LiteralComparisons := by
  unfold Obligations.LiteralComparisons
  intro s ra lit rc
  rw [← toInt_sext16 lit]
  exact ⟨aluLiteral_done (aluCmpeq_eq _ _) rc, aluLiteral_done (aluCmplt_eq _ _) rc,
    aluLiteral_done (aluCmple_eq _ _) rc⟩

/-! ### Logic (43_alu_register R87 to R89) -/

/-- Settles O19: the value is the bitwise operator's, whose bits the library gives. -/
theorem registerLogic : Obligations.RegisterLogic := by
  unfold Obligations.RegisterLogic
  exact fun s ra rb rc => ⟨⟨_, _, rfl, aluDone_retire s rc _, fun k => BitVec.getLsbD_and⟩,
    ⟨_, _, rfl, aluDone_retire s rc _, fun k => BitVec.getLsbD_or⟩,
    ⟨_, _, rfl, aluDone_retire s rc _, fun k => BitVec.getLsbD_xor⟩⟩

/-- Settles O24: the same, and below bit 32 the extended literal repeats its bit 15. -/
theorem literalLogic : Obligations.LiteralLogic := by
  unfold Obligations.LiteralLogic
  exact fun s ra lit rc =>
    ⟨⟨_, _, rfl, aluDone_retire s rc _, fun k hk => by rw [aluAnd, BitVec.getLsbD_and, getLsbD_sext16 lit hk]⟩,
    ⟨_, _, rfl, aluDone_retire s rc _, fun k hk => by rw [aluOr, BitVec.getLsbD_or, getLsbD_sext16 lit hk]⟩,
    ⟨_, _, rfl, aluDone_retire s rc _, fun k hk => by rw [aluXor, BitVec.getLsbD_xor, getLsbD_sext16 lit hk]⟩⟩

/-! ### Shifts (43_alu_register R90 to R94) -/

/-- The count is the second operand modulo 32 (43_alu_register R94). -/
theorem shiftCount_eq (b : Word) : shiftCount b = b.toNat % 32 := by
  rw [shiftCount, BitVec.extractLsb'_toNat, Nat.shiftRight_zero]

/-- A literal's count is the literal modulo 32: extending it changes no low bit (decision D15). -/
theorem toNat_sext16_mod (lit : Lit) : (sext16 lit).toNat % 32 = lit.toNat % 32 := by
  have hlow := congrArg BitVec.toNat (extractLsb'_sext16 lit)
  rw [BitVec.extractLsb'_toNat, Nat.shiftRight_zero] at hlow
  omega

theorem aluShl_eq (a b : Word) : aluShl a b = BitVec.ofNat 32 (a.toNat * 2 ^ (b.toNat % 32)) := by
  apply BitVec.eq_of_toNat_eq
  rw [aluShl, shiftCount_eq, BitVec.toNat_shiftLeft, Nat.shiftLeft_eq, BitVec.toNat_ofNat]

theorem aluShr_eq (a b : Word) : aluShr a b = BitVec.ofNat 32 (a.toNat / 2 ^ (b.toNat % 32)) := by
  rw [aluShr, shiftCount_eq, ← Nat.shiftRight_eq_div_pow, ← BitVec.toNat_ushiftRight, BitVec.ofNat_toNat,
    BitVec.setWidth_eq]

/-- The full sign fill is the floor of the signed quotient (90_conflicts C3). -/
theorem aluSra_eq (a b : Word) : aluSra a b = trunc32 (a.toInt.fdiv (2 ^ (b.toNat % 32))) := by
  have hdiv : a.toInt.fdiv (2 ^ (b.toNat % 32)) = a.toInt >>> (b.toNat % 32) := by
    rw [Int.fdiv_eq_ediv_of_nonneg _ (by positivity), Int.shiftRight_eq_div_pow]
    norm_cast
  rw [hdiv, ← BitVec.toInt_sshiftRight, trunc32, BitVec.ofInt_toInt, aluSra, shiftCount_eq]

/-- Settles O20: each operator as arithmetic on numbers, in the register template. -/
theorem registerShifts : Obligations.RegisterShifts := by
  unfold Obligations.RegisterShifts
  exact fun s ra rb rc => ⟨aluRegister_done (aluShl_eq _ _) rc, aluRegister_done (aluShr_eq _ _) rc,
    aluRegister_done (aluSra_eq _ _) rc⟩

/-- Settles O25: the same operators in the literal template; the count is the literal's own low five bits. -/
theorem literalShifts : Obligations.LiteralShifts := by
  unfold Obligations.LiteralShifts
  intro s ra lit rc
  rw [← toNat_sext16_mod lit]
  exact ⟨aluLiteral_done (aluShl_eq _ _) rc, aluLiteral_done (aluShr_eq _ _) rc, aluLiteral_done (aluSra_eq _ _) rc⟩

/-! ### Division (43_alu_register R83, R93) -/

/-- The exact quotient of two signed words by a non-zero divisor fits a word, but for -2^31 by -1: a quotient of 2^31
needs a dividend of that magnitude and a divisor of magnitude 1. -/
theorem toInt_aluDiv {a b : Word} (hb : b.toInt ≠ 0) (h : ¬ (a.toInt = -2 ^ 31 ∧ b.toInt = -1)) :
    (aluDiv a b).toInt = a.toInt.tdiv b.toInt := by
  have hlow : -2 ^ 31 ≤ a.toInt := a.le_toInt
  have hhigh : a.toInt < 2 ^ 31 := a.toInt_lt
  have habs : (a.toInt.tdiv b.toInt).natAbs = a.toInt.natAbs / b.toInt.natAbs := Int.natAbs_tdiv _ _
  have hle : a.toInt.natAbs / b.toInt.natAbs ≤ a.toInt.natAbs := Nat.div_le_self _ _
  refine BitVec.toInt_ofInt_eq_self (by omega) (by omega) ?_
  by_contra hbig
  have hmin : a.toInt = -2 ^ 31 := by omega
  have hunit : b.toInt.natAbs < 2 := by
    by_contra htwo
    have hhalf : a.toInt.natAbs / b.toInt.natAbs ≤ a.toInt.natAbs / 2 := Nat.div_le_div_left (by omega) (by omega)
    omega
  have hone : b.toInt = 1 := by omega
  rw [hone, Int.tdiv_one] at hbig
  omega

/-- The operator gives the quotient of R93 for every non-zero divisor. -/
theorem isQuotient_aluDiv {a b : Word} (hb : b.toInt ≠ 0) : IsQuotient a.toInt b.toInt (aluDiv a b) := by
  refine ⟨fun hfits => ?_, fun ha hminus => ?_⟩
  · have hsign := Int.sign_tdiv a.toInt b.toInt
    rw [← Int.sign_mul] at hsign
    rw [toInt_aluDiv hb hfits]
    refine ⟨Int.natAbs_tdiv _ _, fun hpos => ?_, fun hneg => ?_⟩
    · have := Int.sign_nonneg_iff.2 hpos
      rw [← Int.sign_nonneg_iff, hsign]
      split <;> omega
    · have := Int.sign_nonpos_iff.2 hneg
      rw [← Int.sign_nonpos_iff, hsign]
      split <;> omega
  · rw [aluDiv, ha, hminus]
    decide

/-- Division by a non-zero divisor writes the quotient and nothing else. -/
theorem divideInto_done {b : Word} (hb : b.toInt ≠ 0) (a : Word) (rc : RegIdx) (s : State) :
    ∃ t q, divideInto a b rc s = .next t ∧ AluDone s t rc q ∧ IsQuotient a.toInt b.toInt q := by
  have hne : ¬ isZero b = true := by
    intro hzero
    simp only [isZero, beq_iff_eq] at hzero
    exact hb (by rw [hzero]; rfl)
  exact ⟨_, _, if_neg hne, aluDone_retire s rc _, isQuotient_aluDiv hb⟩

theorem divideInto_zero (a : Word) (rc : RegIdx) (s : State) :
    ∃ t, divideInto a 0 rc s = .next t ∧ DivideByZeroDone s t :=
  ⟨_, rfl, divideByZeroDone_onDivideByZero s⟩

theorem toInt_ne_zero {n : Nat} {b : BitVec n} (h : b ≠ 0) : b.toInt ≠ 0 := by
  intro hzero
  exact h (BitVec.eq_of_toInt_eq (by rw [hzero]; simp))

/-- Settles O21: the two operand forms differ in where the divisor comes from. -/
theorem division : Obligations.Division := by
  unfold Obligations.Division
  intro s ra rb rc lit
  refine ⟨fun h => divideInto_done (toInt_ne_zero h) (readReg s ra) rc s, fun h => ?_, fun h => ?_, fun h => ?_⟩
  · have hzero := divideInto_zero (readReg s ra) rc s
    rwa [← h] at hzero
  · have hdone := divideInto_done (b := sext16 lit) (by rw [toInt_sext16]; exact toInt_ne_zero h) (readReg s ra) rc s
    rwa [toInt_sext16] at hdone
  · subst h
    exact divideInto_zero (readReg s ra) rc s

/-! ### HALT -/

/-- Settles O16: the arm sets one field, a halted machine's step only empties the report set, and an opcode field of 0
is HALT's number. -/
theorem haltHalts : Obligations.HaltHalts := by
  unfold Obligations.HaltHalts
  refine ⟨fun s => ⟨_, rfl, rfl, rfl, fun _ => rfl, fun _ => rfl, rfl, rfl, rfl, rfl, ⟨rfl, rfl⟩, ?_⟩,
    fun w h => decodeWord_of_opcode (m := .halt) h, rfl⟩
  exact step_of_halted rfl

end Sys2Proof.Proofs
end

section
/-!
Loads, stores and control transfer (41_load_store, 42_control_transfer): the effective addresses as sums of numbers, and
each arm's whole effect.
-/
namespace Sys2Proof.Proofs

open Sys2Proof.Machine

/-- The effective address of LD and ST (41_load_store R69, decision D4). -/
theorem baseOffset_eq (s : State) (ra : RegIdx) (lit : Lit) :
    baseOffset s ra lit = trunc32 ((readReg s ra).toInt + lit.toInt) := by
  rw [← toInt_sext16]
  exact aluAdd_eq _ _

/-- The target of LDR and of the branches (41_load_store R71, 42_control_transfer R76). -/
theorem pcRelative_eq (s : State) (lit : Lit) :
    pcRelative s lit = trunc32 ((s.pc.toNat : Int) + 4 + 4 * lit.toInt) := by
  rw [trunc32, BitVec.ofInt_add, BitVec.ofInt_add, BitVec.ofInt_mul, ← toInt_sext16, BitVec.ofInt_toInt,
    BitVec.ofInt_natCast, BitVec.ofNat_toNat, BitVec.setWidth_eq]
  rfl

/-- Settles O26: the arm is a load from the effective address. -/
theorem loadWord : Obligations.LoadWord := by
  unfold Obligations.LoadWord
  intro s ra lit rc
  rw [← baseOffset_eq]
  exact ⟨_, rfl, loadDone_loadInto s _ rc⟩

/-- Settles O27: the arm is a store to the effective address. -/
theorem storeWord : Obligations.StoreWord := by
  unfold Obligations.StoreWord
  intro s rc lit ra
  rw [← baseOffset_eq]
  exact ⟨_, rfl, storeDone_storeFrom s _ rc⟩

/-- LDR with a target at or below the kernel base is a load (41_load_store R71). -/
theorem exec_ldr_load {s : State} {lit : Lit} (h : (pcRelative s lit).toNat ≤ s.layout.kernelBase) (rc : RegIdx) :
    exec (.ldr lit rc) s = .next (loadInto s (pcRelative s lit) rc) :=
  if_neg (by simpa [ldrStores] using h)

/-- LDR with a target strictly above the kernel base is a store (41_load_store R71, 90_conflicts C4). -/
theorem exec_ldr_store {s : State} {lit : Lit} (h : s.layout.kernelBase < (pcRelative s lit).toNat) (rc : RegIdx) :
    exec (.ldr lit rc) s = .next (storeFrom s (pcRelative s lit) rc) :=
  if_pos (by simpa [ldrStores] using h)

/-- Settles O28: the target's comparison with the kernel base picks the arm. -/
theorem loadRelativeOrStore : Obligations.LoadRelativeOrStore := by
  unfold Obligations.LoadRelativeOrStore
  intro s lit rc target
  have htarget : target = pcRelative s lit := (pcRelative_eq s lit).symm
  rw [htarget]
  exact ⟨fun h => ⟨_, exec_ldr_load h rc, loadDone_loadInto s _ rc⟩,
    fun h => ⟨_, exec_ldr_store h rc, storeDone_storeFrom s _ rc⟩⟩

/-- What is read as `x[Ra]` after the link write (42_control_transfer R74). -/
theorem readReg_writeLink (s : State) (ra rc : RegIdx) : readReg (writeLink s rc) ra = afterLink s ra rc := by
  rw [writeLink, readReg_writeReg, afterLink, readReg_eq]
  grind

/-- The link write and any new `pc` are all that JMP does (42_control_transfer R74, R75). -/
theorem linkDone_writeLink (s : State) (rc : RegIdx) : LinkDone s (writeLink s rc) rc :=
  ⟨slotWritten_of_regs rfl, rfl, ⟨rfl, rfl, rfl, rfl⟩, fun _ => rfl, rfl, rfl⟩

/-- A branch leaves all but `pc` as the link write left it (42_control_transfer R74). -/
theorem linkDone_branchIf (taken : Bool) (lit : Lit) (s : State) (rc : RegIdx) :
    LinkDone s (branchIf taken lit (writeLink s rc)) rc := by
  cases taken <;> exact linkDone_writeLink s rc

/-- Settles O29: `LinkDone` does not speak of `pc`, so the link write's effect is all of JMP's but the target. -/
theorem jumpLinksThenJumps : Obligations.JumpLinksThenJumps := by
  unfold Obligations.JumpLinksThenJumps
  intro s ra rc
  refine ⟨_, rfl, linkDone_writeLink s rc, ?_⟩
  rw [← readReg_writeLink]
  exact toNat_jumpTarget _ ra

/-- A taken branch lands on the target relative to the instruction's own `pc`, which the link write leaves. -/
theorem branchIf_writeLink_pc (taken : Bool) (lit : Lit) (s : State) (rc : RegIdx) :
    (branchIf taken lit (writeLink s rc)).pc =
      if taken then trunc32 ((s.pc.toNat : Int) + 4 + 4 * lit.toInt) else s.pc + 4 := by
  rw [branchIf_pc, pcRelative_eq, writeLink_pc]

/-- Settles O30: both link whatever the test says, and test the register as the link write left it. -/
theorem branchesLinkThenTest : Obligations.BranchesLinkThenTest := by
  unfold Obligations.BranchesLinkThenTest
  intro s ra lit rc
  refine ⟨⟨_, rfl, linkDone_branchIf _ lit s rc, ?_⟩, ⟨_, rfl, linkDone_branchIf _ lit s rc, ?_⟩⟩ <;>
    rw [readReg_writeLink, branchIf_writeLink_pc] <;> simp +contextual [isZero]

end Sys2Proof.Proofs
end

section
/-!
The step (40_step_halt): what it runs, and when it stalls, halts or faults.
-/
namespace Sys2Proof.Proofs

open Sys2Proof.Machine

/-- A step inside memory runs what the word at `pc` decodes to, on the state after the in-service clear
(40_step_halt R61 to R63), under any opcode map. -/
theorem stepWith_in_range {p : Params} {s : State} {i : Instr} (h : s.halted = false) (hpc : s.pc.toNat % 4 = 0)
    (hin : s.pc.toNat < s.layout.memSize) (hdecode : decodeWordWith p.opc (wordAt s s.pc.toNat) = some i) :
    stepWith p s = exec i { s with reports := [], iis := iisAfterBegin s } := by
  rw [← fetched_in_range hin]
  exact stepWith_of_decode h hpc hdecode

theorem step_in_range {s : State} {i : Instr} (h : s.halted = false) (hpc : s.pc.toNat % 4 = 0)
    (hin : s.pc.toNat < s.layout.memSize) (hdecode : decodeWord (wordAt s s.pc.toNat) = some i) :
    step s = exec i { s with reports := [], iis := iisAfterBegin s } :=
  stepWith_in_range (p := defaultParams) h hpc hin hdecode

/-- Settles O36: the alignment test precedes the fetch. -/
theorem misalignedPcFaults : Obligations.MisalignedPcFaults := by
  unfold Obligations.MisalignedPcFaults
  exact fun s h hpc => step_of_misaligned h hpc

/-- The decoder's answer on four bytes alone is its answer on their word. -/
theorem decodeWord_of_decode {b0 b1 b2 b3 : Byte} {i : Instr} {rest : List Byte}
    (h : decode [b0, b1, b2, b3] = .ok (i, rest)) : decodeWord (wordOfBytes b0 b1 b2 b3) = some i := by
  simp only [decode] at h
  cases hword : decodeWord (wordOfBytes b0 b1 b2 b3) with
  | none => simp [hword] at h
  | some j =>
    simp only [hword, Except.ok.injEq, Prod.mk.injEq] at h
    rw [h.1]

/-- Settles O32: the four bytes are the word that the step fetches. -/
theorem stepRunsTheDecodedInstruction : Obligations.StepRunsTheDecodedInstruction := by
  unfold Obligations.StepRunsTheDecodedInstruction
  intro s i rest h hpc hin hdecode
  refine step_in_range h hpc (by omega) ?_
  rw [wordAt_in_range hin]
  exact decodeWord_of_decode hdecode

/-- Settles O31: the store advances `pc` to the address it wrote, and a word stored is read back (20_memory R44). -/
theorem storeIsSeenByTheNextFetch : Obligations.StoreIsSeenByTheNextFetch := by
  unfold Obligations.StoreIsSeenByTheNextFetch
  intro s t rc lit ra j hexec haddr hrange haligned hrun hdecode
  obtain rfl : storeFrom s (baseOffset s ra lit) rc = t := Host.Outcome.next.inj hexec
  rw [haddr]
  obtain ⟨-, hpc, ⟨hhalted, -, -, hlayout⟩, hin, -⟩ := storeDone_storeFrom s (s.pc + 4) rc
  obtain ⟨hstored, -, -⟩ := hin hrange
  have hword : wordAt (storeFrom s (s.pc + 4) rc) (s.pc + 4).toNat = readReg s rc :=
    wordAt_of_wordStored hstored (by rwa [hlayout])
  refine step_in_range (hhalted.trans hrun) (by rwa [hpc]) (by rw [hpc, hlayout]; omega) ?_
  rw [hpc, hword, hdecode]

/-- Under a well-formed map the word 0 is HALT (30_encoding R53). -/
theorem decodeWordWith_zero {p : Params} (hp : p.WellFormed) : decodeWordWith p.opc 0 = some .halt := by
  have hopcode : (fieldsOf 0).opcode = p.opc .halt := hp.opc_halt.symm
  rw [decodeWordWith, hopcode, lookupOpcode_opc hp.opc_injective]
  rfl

theorem defaultParams_wellFormed : defaultParams.WellFormed := ⟨opcodeNumber_injective, rfl⟩

/-- What an invalid opcode leaves (40_step_halt R66): the report, and `iis` as R61 sets it. -/
def stalled (s : State) (w : Word) : State :=
  { s with reports := [.invalidOpcode w], faulted := true, iis := iisAfterBegin s }

/-- Stalling again changes nothing: `iis`, once cleared below `P`, stays cleared. -/
theorem stalled_stalled (s : State) (w : Word) : stalled (stalled s w) w = stalled s w := by
  have hiis : iisAfterBegin (stalled s w) = iisAfterBegin s := by
    by_cases hlow : s.pc.toNat < s.layout.progSize <;> simp [iisAfterBegin, stalled, hlow]
  rw [stalled, hiis]
  rfl

/-- A word the map gives no instruction is reported, and nothing else changes but what R61 clears (40_step_halt R66). -/
theorem stepWith_invalid_in_range {p : Params} {s : State} (h : s.halted = false) (hpc : s.pc.toNat % 4 = 0)
    (hin : s.pc.toNat < s.layout.memSize) (hdecode : decodeWordWith p.opc (fetchWord s s.pc).1 = none) :
    stepWith p s = .next (stalled s (fetchWord s s.pc).1) := by
  rw [stepWith_of_invalid h hpc hdecode, fetched_in_range hin]
  rfl

/-- A fetch beyond memory reports, yields 0 and so halts the machine (40_step_halt R67). -/
theorem stepWith_out_of_range {p : Params} (hp : p.WellFormed) {s : State} (h : s.halted = false)
    (hpc : s.pc.toNat % 4 = 0) (hout : s.layout.memSize ≤ s.pc.toNat) :
    stepWith p s = .next { s with
      halted := true, reports := [.outOfRangeRead s.pc], faulted := true, iis := iisAfterBegin s } := by
  have hdecode : decodeWordWith p.opc (fetchWord s s.pc).1 = some .halt := by
    rw [fetchWord_fst, wordAt_out_of_range hout, decodeWordWith_zero hp]
  rw [stepWith_of_decode h hpc hdecode, fetched_out_of_range hout]
  rfl

/-- A fetched word that does not decode lies inside memory, since beyond it a fetch yields HALT. -/
theorem pc_in_range_of_invalid {s : State} (h : decodeWord (fetchWord s s.pc).1 = none) :
    s.pc.toNat < s.layout.memSize := by
  by_contra hout
  rw [fetchWord_fst, wordAt_out_of_range (Nat.not_lt.1 hout)] at h
  exact absurd (h.symm.trans (decodeWordWith_zero defaultParams_wellFormed)) (by simp)

/-- Settles O34: the stalled state differs in no field that decides the next fetch, so the next step stalls on the same
word, and stalling twice is stalling once. -/
theorem invalidOpcodeStalls : Obligations.InvalidOpcodeStalls := by
  unfold Obligations.InvalidOpcodeStalls
  intro s h hpc hdecode
  have hin := pc_in_range_of_invalid hdecode
  have hword : ∀ w, (fetchWord (stalled s w) (stalled s w).pc).1 = (fetchWord s s.pc).1 :=
    fun w => wordAt_congr (s := s) (t := stalled s w) rfl rfl _
  refine ⟨stalled s (fetchWord s s.pc).1, stepWith_invalid_in_range (p := defaultParams) h hpc hin hdecode, ?_,
    rfl, h, fun _ => rfl, fun _ => rfl, rfl, rfl, rfl, rfl, rfl, rfl⟩
  have hagain := stepWith_invalid_in_range (p := defaultParams) (s := stalled s (fetchWord s s.pc).1) h hpc hin
    (by rw [hword]; exact hdecode)
  rwa [hword, stalled_stalled] at hagain

/-- Settles O35: the word 0 is HALT, run on the state that holds the fetch's report. -/
theorem fetchBeyondMemoryHalts : Obligations.FetchBeyondMemoryHalts := by
  unfold Obligations.FetchBeyondMemoryHalts
  exact fun s h hpc hout => ⟨_, stepWith_out_of_range defaultParams_wellFormed h hpc hout, rfl, rfl, fun _ => rfl,
    fun _ => rfl, rfl, rfl, rfl, rfl, rfl, rfl⟩

/-- Settles O58: each clause is the step's or the disassembler's lemma at the given map; the bytes at `pc` determine the
word that is fetched. -/
theorem opcodeNumbersAreAParameter : Obligations.OpcodeNumbersAreAParameter := by
  unfold Obligations.OpcodeNumbersAreAParameter
  intro p hp
  refine ⟨fun s i h hpc hrange hbytes => ?_, fun s h hpc hin hdecode => stepWith_invalid_in_range h hpc hin hdecode,
    fun s h hpc hout => stepWith_out_of_range hp h hpc hout, fun i => ?_⟩
  · have hword : wordAt s s.pc.toNat = encodeWith p.opc i :=
      readsAs_unique (readsAs_wordAt s _) fun k hk => by rw [if_pos (by omega), hbytes k hk]
    refine stepWith_in_range h hpc (by omega) ?_
    rw [hword, decodeWordWith_encodeWith hp.opc_injective]
  · rw [disassembleWith, decodeWordWith_encodeWith hp.opc_injective]

end Sys2Proof.Proofs
end

section
/-!
What an instruction does, tied to its mnemonic and the fields of its word: the inversion lemma of the dispatch that says
which instruction halts, which one stores, and that no register but `Rc` is written.
-/
namespace Sys2Proof.Proofs

open Sys2Proof.Machine

/-- A division whose divisor is zero (43_alu_register R83, 44_alu_literal R100). -/
def DividesByZero (s : State) (f : Fields) (m : Mnemonic) : Prop :=
  m = .div ∧ readReg s f.rb = 0 ∨ m = .divc ∧ f.lit = 0

/-- The effect of a mnemonic's instruction on a word's fields, with what tells one case from another. -/
inductive FieldsEffect (s : State) (f : Fields) : Mnemonic → State → Prop where
  | halt : FieldsEffect s f .halt { s with halted := true }
  | load {m : Mnemonic} (a : Word) (hm : m = .ld ∨ m = .ldr) : FieldsEffect s f m (loadInto s a f.rc)
  | store {m : Mnemonic} (a : Word) (hm : m = .st ∨ m = .ldr ∧ s.layout.kernelBase < (pcRelative s f.lit).toNat) :
    FieldsEffect s f m (storeFrom s a f.rc)
  | jump : FieldsEffect s f .jmp { writeLink s f.rc with pc := jumpTarget (writeLink s f.rc) f.ra }
  | branch {m : Mnemonic} (taken : Bool) (hm : m = .beq ∨ m = .bne) :
    FieldsEffect s f m (branchIf taken f.lit (writeLink s f.rc))
  | result {m : Mnemonic} (v : Word) (hm : m ≠ .halt) (hdiv : ¬ DividesByZero s f m) :
    FieldsEffect s f m (retire s f.rc v)
  | divideByZero {m : Mnemonic} (h : DividesByZero s f m) : FieldsEffect s f m (onDivideByZero s)

/-- A division is by zero or gives a result, as its divisor says. -/
theorem divideInto_fieldsEffect {s : State} {f : Fields} {m : Mnemonic} {b : Word} (a : Word) (hm : m ≠ .halt)
    (hb : b = 0 ↔ DividesByZero s f m) : ∃ t, divideInto a b f.rc s = .next t ∧ FieldsEffect s f m t := by
  unfold divideInto
  by_cases hzero : b = 0
  · exact ⟨_, if_pos (by simpa [isZero] using hzero), .divideByZero (hb.1 hzero)⟩
  · exact ⟨_, if_neg (by simpa [isZero] using hzero), .result _ hm (fun h => hzero (hb.2 h))⟩

theorem sext16_eq_zero_iff (lit : Lit) : sext16 lit = 0 ↔ lit = 0 := by
  rw [← BitVec.toInt_inj, ← BitVec.toInt_inj, toInt_sext16]
  rfl

/-- The inversion lemma of the dispatch, by mnemonic and fields. -/
theorem exec_instrOf_cases (m : Mnemonic) (f : Fields) (s : State) :
    ∃ t, exec (instrOf m f) s = .next t ∧ FieldsEffect s f m t := by
  cases m
  case halt => exact ⟨_, rfl, .halt⟩
  case ld => exact ⟨_, rfl, .load _ (.inl rfl)⟩
  case st => exact ⟨_, rfl, .store _ (.inl rfl)⟩
  case jmp => exact ⟨_, rfl, .jump⟩
  case beq => exact ⟨_, rfl, .branch _ (.inl rfl)⟩
  case bne => exact ⟨_, rfl, .branch _ (.inr rfl)⟩
  case ldr =>
    by_cases h : (pcRelative s f.lit).toNat ≤ s.layout.kernelBase
    · exact ⟨_, exec_ldr_load h f.rc, .load _ (.inr rfl)⟩
    · exact ⟨_, exec_ldr_store (Nat.not_le.1 h) f.rc, .store _ (.inr ⟨rfl, Nat.not_le.1 h⟩)⟩
  case div => exact divideInto_fieldsEffect _ (by decide) (by simp [DividesByZero])
  case divc => exact divideInto_fieldsEffect _ (by decide) (by simpa [DividesByZero] using sext16_eq_zero_iff f.lit)
  all_goals exact ⟨_, rfl, .result _ (by decide) (by simp [DividesByZero])⟩

section
variable {s t : State} {f : Fields} {m : Mnemonic} (h : FieldsEffect s f m t)
include h

/-- A running machine is halted by HALT and by a division by zero alone (10_state R15, 90_conflicts C12). -/
theorem fieldsEffect_halted_iff (hrun : s.halted = false) : t.halted = true ↔ m = .halt ∨ DividesByZero s f m := by
  cases h with
  | halt => simp
  | load a hm => rcases hm with rfl | rfl <;> simp [loadInto, hrun, DividesByZero]
  | store a hm => rcases hm with rfl | ⟨rfl, -⟩ <;> simp [storeFrom, hrun, DividesByZero]
  | jump => simp [hrun, DividesByZero]
  | branch taken hm => rcases hm with rfl | rfl <;> simp [hrun, DividesByZero]
  | result v hm hdiv => simp [hrun, hm, hdiv]
  | divideByZero hzero => simp [hzero]

/-- No instruction writes a register but `Rc` (10_state R12). -/
theorem fieldsEffect_slot {r : RegIdx} (hr : r ≠ f.rc) : t.slot r = s.slot r := by
  have hlink : (writeLink s f.rc).slot r = s.slot r := by rw [writeLink, slot_writeReg, if_neg hr]
  have hretire : ∀ (u : State) (v : Word), (retire u f.rc v).slot r = u.slot r :=
    fun u v => (slot_writeReg u f.rc r v).trans (if_neg hr)
  cases h with
  | halt => rfl
  | load a hm => exact (hretire _ _).trans (slot_congr (memRead_snd_regs s a) r)
  | store a hm => exact slot_congr (memWrite_regs s a _) r
  | jump => exact hlink
  | branch taken hm => exact (slot_congr (branchIf_regs taken f.lit _) r).trans hlink
  | result v hm hdiv => exact hretire s v
  | divideByZero hzero => rfl

/-- Memory is changed by ST, and by LDR above the kernel base, alone (41_load_store R70, R71). -/
theorem fieldsEffect_mem (hst : m ≠ .st) (hldr : m = .ldr → (pcRelative s f.lit).toNat ≤ s.layout.kernelBase) :
    t.mem = s.mem := by
  cases h with
  | store a hm =>
    rcases hm with rfl | ⟨rfl, habove⟩
    · exact absurd rfl hst
    · exact absurd habove (Nat.not_lt.2 (hldr rfl))
  | halt => rfl
  | load a hm => exact memRead_snd_mem s a
  | jump => rfl
  | branch taken hm => exact branchIf_mem _ _ _
  | result v hm hdiv => rfl
  | divideByZero hzero => rfl

end

/-- The inversion lemma of the step by mnemonic and fields: what a step that answers has done. -/
theorem step_next_cases {s t : State} (h : step s = .next t) :
    (s.halted = true ∧ t = beginOperation s) ∨
    (∃ m, decodeWord (fetchWord s s.pc).1 = some (instrOf m (fieldsOf (fetchWord s s.pc).1)) ∧
      FieldsEffect (fetched s) (fieldsOf (fetchWord s s.pc).1) m t) ∨
    (decodeWord (fetchWord s s.pc).1 = none ∧ t = onInvalidOpcode (fetched s) (fetchWord s s.pc).1) := by
  rcases step_cases s with ⟨hh, hs⟩ | ⟨-, -, hs⟩ | ⟨-, -, i, u, hdecode, hexec, hs, -⟩ | ⟨-, -, hdecode, hs⟩ <;>
    rw [hs] at h
  · exact .inl ⟨hh, (Host.Outcome.next.inj h).symm⟩
  · exact absurd h (by simp)
  · obtain rfl : u = t := Host.Outcome.next.inj h
    obtain ⟨-, hinstr⟩ := decodeWord_eq_some hdecode
    obtain ⟨v, hv, heffect⟩ := exec_instrOf_cases i.mnemonic (fieldsOf (fetchWord s s.pc).1) (fetched s)
    rw [hinstr, hexec] at hv
    obtain rfl : u = v := Host.Outcome.next.inj hv
    exact .inr (.inl ⟨i.mnemonic, by rw [hinstr, hdecode], heffect⟩)
  · exact .inr (.inr ⟨hdecode, (Host.Outcome.next.inj h).symm⟩)

/-- Settles O41: bits 25..21 are the field `Rc`, and the step around the arm writes no register. -/
theorem stepWritesOnlyTheRcRegister : Obligations.StepWritesOnlyTheRcRegister := by
  unfold Obligations.StepWritesOnlyTheRcRegister
  intro s t hstep r hr
  have hfetched : (fetched s).slot r = s.slot r := slot_congr (by simp) r
  rcases step_next_cases hstep with ⟨-, rfl⟩ | ⟨m, -, heffect⟩ | ⟨-, rfl⟩
  · rfl
  · exact (fieldsEffect_slot heffect hr).trans hfetched
  · exact hfetched

/-- Settles O42: the mnemonic's instruction on the word's fields is the decoded one, which is neither an ST nor an LDR
above the kernel base. -/
theorem onlyStoresChangeMemory : Obligations.OnlyStoresChangeMemory := by
  unfold Obligations.OnlyStoresChangeMemory
  intro s t hstep hst hldr
  suffices hmem : t.mem = s.mem from fun a => by rw [hmem]
  rcases step_next_cases hstep with ⟨-, rfl⟩ | ⟨m, hdecode, heffect⟩ | ⟨-, rfl⟩
  · rfl
  · refine (fieldsEffect_mem heffect ?_ ?_).trans (by simp)
    · rintro rfl
      exact hst _ _ _ hdecode
    · rintro rfl
      simpa [pcRelative_eq, Layout.kernelBase] using hldr _ _ hdecode
  · simp

/-- Settles O39: the case `m = halt` or a division by zero is what the decoded instruction says. -/
theorem onlyHaltAndDivideByZeroHalt : Obligations.OnlyHaltAndDivideByZeroHalt := by
  unfold Obligations.OnlyHaltAndDivideByZeroHalt
  intro s t hrun hstep
  rcases step_next_cases hstep with ⟨hh, -⟩ | ⟨m, hdecode, heffect⟩ | ⟨hdecode, rfl⟩
  · simp [hrun] at hh
  · rw [fieldsEffect_halted_iff heffect (by simpa using hrun), hdecode]
    have hport : ∀ i, readReg (fetched s) i = readReg s i := readReg_congr (by simp)
    cases m <;> simp [instrOf, DividesByZero, hport]
  · rw [hdecode]
    simp [hrun]

/-- A step adds at most one report to none: the fetch reports only beyond memory, where the word is HALT, which reports
nothing itself (60_exceptions R122). -/
theorem step_reports {s t : State} (h : step s = .next t) :
    ∃ rs, rs.length ≤ 1 ∧ ReportsAdded (beginOperation s) t rs := by
  obtain ⟨rs, hfetch, hnone⟩ := fetched_reports s
  rcases step_cases s with ⟨-, hs⟩ | ⟨-, -, hs⟩ | ⟨hh, hpc, i, u, -, -, hs, heffect⟩ | ⟨-, -, hdecode, hs⟩ <;>
    rw [hs] at h
  · obtain rfl := Host.Outcome.next.inj h
    exact ⟨[], by simp, .nil rfl rfl⟩
  · exact absurd h (by simp)
  · obtain rfl := Host.Outcome.next.inj h
    by_cases hin : s.pc.toNat < s.layout.memSize
    · obtain ⟨qs, hone, hexec⟩ := execEffect_reports heffect
      obtain rfl := hnone hin
      exact ⟨qs, hone, hfetch.trans hexec⟩
    · have hout := stepWith_out_of_range defaultParams_wellFormed hh hpc (Nat.not_lt.1 hin)
      obtain rfl := Host.Outcome.next.inj (hs.symm.trans hout)
      exact ⟨[.outOfRangeRead s.pc], by simp, rfl, by simp⟩
  · obtain rfl := Host.Outcome.next.inj h
    obtain rfl := hnone (pc_in_range_of_invalid hdecode)
    exact ⟨[.invalidOpcode _], by simp, hfetch.trans (reportsAdded_raiseReport _ _)⟩

/-- Settles O40: the reports are those the step added to none, and each was marked. -/
theorem stepReportsAtMostOnce : Obligations.StepReportsAtMostOnce := by
  unfold Obligations.StepReportsAtMostOnce
  intro s t hstep
  obtain ⟨rs, hone, hadded⟩ := step_reports hstep
  exact ⟨by rw [hadded.1]; exact hone, hadded.faulted_iff⟩

end Sys2Proof.Proofs
end

section
/-!
The operations of all agents (00_scope R9): what only reset can change, reports and the sticky mark, reset, the loaders
and the read accessors.
-/
namespace Sys2Proof.Proofs

open Sys2Proof.Machine

/-! ### Delivery, field by field, in range or not -/

@[simp] theorem saveContext_halted (s : State) : (saveContext s).halted = s.halted := rfl

@[simp] theorem saveContext_lpl (s : State) : (saveContext s).lpl = s.lpl := rfl

@[simp] theorem saveContext_layout (s : State) : (saveContext s).layout = s.layout := rfl

@[simp] theorem writeIrqMetadata_halted (p : Params) (s : State) (ty : IrqType) (key : Word) :
    (writeIrqMetadata p s ty key).halted = s.halted := by
  cases ty <;> simp [writeIrqMetadata, writeIrqType]

@[simp] theorem writeIrqMetadata_lpl (p : Params) (s : State) (ty : IrqType) (key : Word) :
    (writeIrqMetadata p s ty key).lpl = s.lpl := by
  cases ty <;> simp [writeIrqMetadata, writeIrqType]

@[simp] theorem writeIrqMetadata_layout (p : Params) (s : State) (ty : IrqType) (key : Word) :
    (writeIrqMetadata p s ty key).layout = s.layout := by
  cases ty <;> simp [writeIrqMetadata, writeIrqType]

/-- A request changes neither `halted` nor `lpl` nor the sizes (60_exceptions R130, R145). -/
theorem raiseInterrupt_frame (s : State) (ty : IrqType) (key : Word) :
    (raiseInterrupt s ty key).halted = s.halted ∧ (raiseInterrupt s ty key).lpl = s.lpl ∧
    (raiseInterrupt s ty key).layout = s.layout := by
  rw [raiseInterrupt_def]
  split
  · exact ⟨rfl, rfl, rfl⟩
  · simp [enterHandler]

/-! ### The loaders, field by field -/

/-- Loading a program changes neither `halted` nor the sizes (20_memory R41). -/
theorem loadProgram_frame (s : State) (bytes : List Byte) :
    (loadProgram s bytes).halted = s.halted ∧ (loadProgram s bytes).layout = s.layout := by
  by_cases h : bytes.length ≤ s.layout.progSize
  · rw [loadProgram_fits h]
    exact ⟨rfl, rfl⟩
  · rw [loadProgram_too_large (Nat.not_le.1 h)]
    exact ⟨rfl, rfl⟩

/-- Loading a handler changes neither `halted` nor `lpl` nor the sizes (20_memory R42). -/
theorem loadHandler_frame (s : State) (bytes : List Byte) :
    (loadHandler s bytes).halted = s.halted ∧ (loadHandler s bytes).lpl = s.lpl ∧
    (loadHandler s bytes).layout = s.layout := by
  by_cases h : bytes.length + Config.handlerOffset ≤ s.layout.kernSize
  · rw [loadHandler_fits h]
    exact ⟨rfl, rfl, rfl⟩
  · rw [loadHandler_too_large (Nat.not_le.1 h)]
    exact ⟨rfl, rfl, rfl⟩

/-! ### What only reset changes -/

/-- A step changes neither the sizes nor the loaded length (10_state R18, R19). -/
theorem step_frame {s t : State} (h : step s = .next t) : t.layout = s.layout ∧ t.lpl = s.lpl := by
  rcases step_cases s with ⟨-, hs⟩ | ⟨-, -, hs⟩ | ⟨-, -, i, u, -, -, hs, heffect⟩ | ⟨-, -, -, hs⟩ <;> rw [hs] at h
  · obtain rfl := Host.Outcome.next.inj h
    exact ⟨rfl, rfl⟩
  · exact absurd h (by simp)
  · obtain rfl := Host.Outcome.next.inj h
    simp [execEffect_keeps_layout heffect, execEffect_keeps_lpl heffect]
  · obtain rfl := Host.Outcome.next.inj h
    simp

/-- Settles O38: the step by its frame, every other operation by its own. -/
theorem sizesAndLengthAreFixed : Obligations.SizesAndLengthAreFixed := by
  unfold Obligations.SizesAndLengthAreFixed
  intro o s t h hreset
  cases o with
  | reset l => exact absurd rfl (hreset l)
  | step =>
    obtain ⟨hlayout, hlpl⟩ := step_frame h
    exact ⟨hlayout, fun _ => hlpl⟩
  | loadProgram bytes =>
    obtain rfl := Host.Outcome.next.inj h
    exact ⟨(loadProgram_frame s bytes).2, fun hload => absurd rfl (hload bytes)⟩
  | loadHandler bytes =>
    obtain rfl := Host.Outcome.next.inj h
    obtain ⟨-, hlpl, hlayout⟩ := loadHandler_frame s bytes
    exact ⟨hlayout, fun _ => hlpl⟩
  | raiseInterrupt ty key =>
    obtain rfl := Host.Outcome.next.inj h
    obtain ⟨-, hlpl, hlayout⟩ := raiseInterrupt_frame s ty key
    exact ⟨hlayout, fun _ => hlpl⟩
  | readRegister | readMemoryWord | readPc | readHalted | readLastAccessed | disassemble =>
    obtain rfl := Host.Outcome.next.inj h
    exact ⟨rfl, fun _ => rfl⟩

/-- No operation but reset leaves `Halted` (10_state R15, 60_exceptions R143, R145). -/
theorem perform_keeps_halted {o : Operation} {s t : State} (hhalted : s.halted = true) (h : perform o s = .next t)
    (hreset : ∀ l, o ≠ .reset l) : t.halted = true := by
  cases o with
  | reset l => exact absurd rfl (hreset l)
  | step =>
    obtain rfl := Host.Outcome.next.inj ((step_of_halted hhalted).symm.trans h)
    exact hhalted
  | loadProgram bytes =>
    obtain rfl := Host.Outcome.next.inj h
    exact (loadProgram_frame s bytes).1.trans hhalted
  | loadHandler bytes =>
    obtain rfl := Host.Outcome.next.inj h
    exact (loadHandler_frame s bytes).1.trans hhalted
  | raiseInterrupt ty key =>
    obtain rfl := Host.Outcome.next.inj h
    exact (raiseInterrupt_frame s ty key).1.trans hhalted
  | readRegister | readMemoryWord | readPc | readHalted | readLastAccessed | disassemble =>
    obtain rfl := Host.Outcome.next.inj h
    exact hhalted

/-- A run that answers has taken its first operation to some state and run on from there. -/
theorem performAll_cons_next {o : Operation} {os : List Operation} {s u : State}
    (h : performAll (o :: os) s = .next u) : ∃ t, perform o s = .next t ∧ performAll os t = .next u := by
  rw [performAll_cons] at h
  cases ho : perform o s with
  | next t =>
    rw [ho] at h
    exact ⟨t, rfl, h⟩
  | fault r => simp [ho] at h
  | refused r => simp [ho] at h

theorem performAll_keeps_halted {os : List Operation} {s t : State} (hhalted : s.halted = true)
    (hreset : ∀ o ∈ os, ∀ l, o ≠ Operation.reset l) (h : performAll os s = .next t) : t.halted = true := by
  induction os generalizing s with
  | nil =>
    obtain rfl := Host.Outcome.next.inj h
    exact hhalted
  | cons o os ih =>
    obtain ⟨u, ho, hos⟩ := performAll_cons_next h
    exact ih (perform_keeps_halted hhalted ho (hreset o (by simp))) (fun q hq => hreset q (by simp [hq])) hos

/-- A run takes its first step and runs on from the next state. -/
theorem run_succ_of_step {M : Host.Core} {s s' : M.State} (h : M.step s = .next s') (n : Nat) :
    M.run (n + 1) s = M.run n s' := by
  simp only [Host.Core.run, h]

/-- Any number of steps from a halted state that has no report pending leave it as it is (40_step_halt R60). -/
theorem run_of_halted {s : State} (h : s.halted = true) (n : Nat) :
    Host.Core.run Sys2Proof.core n (beginOperation s) = .next (beginOperation s) := by
  have hstep : Sys2Proof.core.step (beginOperation s) = .next (beginOperation s) :=
    step_of_halted (s := beginOperation s) h
  induction n with
  | zero => rfl
  | succ n ih => exact (run_succ_of_step hstep n).trans ih

/-- Settles O33: the first step empties the report set, and the later ones find it empty. -/
theorem haltedIsTerminal : Obligations.HaltedIsTerminal := by
  unfold Obligations.HaltedIsTerminal
  intro s h
  refine ⟨fun n => ?_, fun os t hreset hrun => performAll_keeps_halted h hreset hrun⟩
  have hstep : Sys2Proof.core.step s = .next (beginOperation s) := step_of_halted h
  exact (run_succ_of_step hstep n).trans (run_of_halted h n)

/-! ### Reports and the sticky mark -/

/-- The metadata writes add reports only as their stores do. -/
theorem writeIrqMetadata_reports (p : Params) (s : State) (ty : IrqType) (key : Word) :
    ∃ rs, ReportsAdded s (writeIrqMetadata p s ty key) rs := by
  obtain ⟨rs, -, htype⟩ := reportsAdded_memWrite s (BitVec.ofNat 32 (p.irqTypeAddr s.layout)) (irqTypeWord ty)
  cases ty with
  | keyUp => exact ⟨rs, htype⟩
  | keyDown =>
    obtain ⟨qs, -, hkey⟩ :=
      reportsAdded_memWrite (writeIrqType p s .keyDown) (BitVec.ofNat 32 (p.irqKeyAddr s.layout)) key
    exact ⟨rs ++ qs, htype.trans hkey⟩

theorem raiseInterrupt_reports (s : State) (ty : IrqType) (key : Word) :
    ∃ rs, ReportsAdded (beginOperation s) (raiseInterrupt s ty key) rs := by
  rw [raiseInterrupt_def]
  split
  · exact ⟨[], .nil rfl rfl⟩
  · obtain ⟨rs, -, hstore⟩ := reportsAdded_memWrite (saveContext (beginOperation s))
      (BitVec.ofNat 32 s.lpl) (BitVec.ofNat 32 s.layout.kernelBase)
    obtain ⟨qs, hmeta⟩ := writeIrqMetadata_reports defaultParams (enterHandler (beginOperation s)) ty key
    have hsave : ReportsAdded (beginOperation s) (saveContext (beginOperation s)) [] := .nil rfl rfl
    exact ⟨[] ++ rs ++ qs, (hsave.trans hstore).trans hmeta⟩

theorem loadProgram_reports (s : State) (bytes : List Byte) :
    ∃ rs, ReportsAdded (beginOperation s) (loadProgram s bytes) rs := by
  by_cases h : bytes.length ≤ s.layout.progSize
  · exact ⟨[], by rw [loadProgram_fits h]; exact .nil rfl rfl⟩
  · exact ⟨_, by rw [loadProgram_too_large (Nat.not_le.1 h)]; exact reportsAdded_raiseReport _ _⟩

theorem loadHandler_reports (s : State) (bytes : List Byte) :
    ∃ rs, ReportsAdded (beginOperation s) (loadHandler s bytes) rs := by
  by_cases h : bytes.length + Config.handlerOffset ≤ s.layout.kernSize
  · exact ⟨[], by rw [loadHandler_fits h]; exact .nil rfl rfl⟩
  · exact ⟨_, by rw [loadHandler_too_large (Nat.not_le.1 h)]; exact reportsAdded_raiseReport _ _⟩

/-- An accessor's reports are folded into the mark (60_exceptions R121, D26). -/
theorem recordReports_reports (s : State) (rs : List Report) :
    ReportsAdded (beginOperation s) (recordReports s rs) rs := ⟨rfl, rfl⟩

/-- Every operation on the machine adds its reports to an emptied set and marks them, reset apart. -/
theorem perform_reports {o : Operation} {s t : State} (h : perform o s = .next t) (hreset : ∀ l, o ≠ .reset l)
    (hdis : ∀ w, o ≠ .disassemble w) : ∃ rs, ReportsAdded (beginOperation s) t rs := by
  cases o with
  | reset l => exact absurd rfl (hreset l)
  | disassemble w => exact absurd rfl (hdis w)
  | step =>
    obtain ⟨rs, -, hadded⟩ := step_reports h
    exact ⟨rs, hadded⟩
  | loadProgram bytes => exact Host.Outcome.next.inj h ▸ loadProgram_reports s bytes
  | loadHandler bytes => exact Host.Outcome.next.inj h ▸ loadHandler_reports s bytes
  | raiseInterrupt ty key => exact Host.Outcome.next.inj h ▸ raiseInterrupt_reports s ty key
  | readRegister | readMemoryWord | readPc | readHalted | readLastAccessed =>
    exact ⟨_, Host.Outcome.next.inj h ▸ recordReports_reports s _⟩

/-- No operation but reset clears the mark (60_exceptions R121). -/
theorem perform_keeps_faulted {o : Operation} {s t : State} (h : perform o s = .next t) (hreset : ∀ l, o ≠ .reset l)
    (hfaulted : s.faulted = true) : t.faulted = true := by
  by_cases hdis : ∃ w, o = .disassemble w
  · obtain ⟨w, rfl⟩ := hdis
    exact Host.Outcome.next.inj h ▸ hfaulted
  · obtain ⟨rs, hadded⟩ := perform_reports h hreset (fun w hw => hdis ⟨w, hw⟩)
    exact hadded.faulted_iff.2 (.inl hfaulted)

theorem performAll_keeps_faulted {os : List Operation} {s t : State} (hreset : ∀ o ∈ os, ∀ l, o ≠ Operation.reset l)
    (h : performAll os s = .next t) (hfaulted : s.faulted = true) : t.faulted = true := by
  induction os generalizing s with
  | nil => exact Host.Outcome.next.inj h ▸ hfaulted
  | cons o os ih =>
    obtain ⟨u, ho, hos⟩ := performAll_cons_next h
    exact ih (fun q hq => hreset q (by simp [hq])) hos (perform_keeps_faulted ho (hreset o (by simp)) hfaulted)

/-- A run without a reset ends unmarked exactly when it is safe: the mark is never cleared. -/
theorem faulted_eq_false_iff_safeRun {os : List Operation} {s t : State}
    (hreset : ∀ o ∈ os, ∀ l, o ≠ Operation.reset l) (h : performAll os s = .next t) :
    t.faulted = false ↔ SafeRun os s := by
  induction os generalizing s with
  | nil =>
    obtain rfl := Host.Outcome.next.inj h
    exact (safeRun_nil s).symm
  | cons o os ih =>
    obtain ⟨u, ho, hos⟩ := performAll_cons_next h
    have hrest := ih (fun q hq => hreset q (by simp [hq])) hos
    rw [safeRun_cons]
    constructor
    · intro hclean
      refine ⟨?_, u, ho, hrest.1 hclean⟩
      by_contra hmarked
      have hend := performAll_keeps_faulted hreset h (by simpa using hmarked)
      simp [hclean] at hend
    · rintro ⟨-, v, hv, hsafe⟩
      obtain rfl := Host.Outcome.next.inj (hv.symm.trans ho)
      exact hrest.2 hsafe

/-- Settles O57: one operation by the reports it adds, a run by induction, since nothing but reset clears the mark. -/
theorem everyReportSetsTheMark : Obligations.EveryReportSetsTheMark := by
  unfold Obligations.EveryReportSetsTheMark
  refine ⟨fun o s t h hreset hdis => ?_, fun os s t hreset h => faulted_eq_false_iff_safeRun hreset h⟩
  obtain ⟨rs, hadded⟩ := perform_reports h hreset hdis
  exact hadded.faulted_iff

/-! ### Reset, the loaders and the accessors -/

/-- Settles O47: the conditions of a well-formed layout written out, and the reset state's own values. -/
theorem resetGivesAFreshMachine : Obligations.ResetGivesAFreshMachine := by
  unfold Obligations.ResetGivesAFreshMachine
  intro l
  refine ⟨layout_wf_iff l, fun h => ⟨_, resetMachine_of_wf h, rfl, rfl, rfl, fun i => ?_, rfl, rfl, rfl, fun _ => rfl,
    rfl, rfl⟩, fun h => if_neg (by simp [h])⟩
  exact Vector.getElem_replicate _

/-- The address of an image's last word, or of its start when it is shorter than a word (20_memory R41). -/
theorem lastWordAddr_eq (n : Nat) : lastWordAddr n = n - 4 := by
  unfold lastWordAddr
  split <;> omega

/-- Settles O53: the two outcomes of the loader; the image's bytes are read back. -/
theorem loadProgramCopiesTheImage : Obligations.LoadProgramCopiesTheImage := by
  unfold Obligations.LoadProgramCopiesTheImage
  intro s bytes
  refine ⟨fun h => ⟨loadProgram s bytes, rfl, ?_⟩, fun h => ?_⟩
  · rw [loadProgram_fits h, lastWordAddr_eq]
    refine ⟨fun a => ?_, rfl, rfl, fun _ => rfl, rfl, rfl, rfl, rfl, rfl, rfl⟩
    simp [Memory.readByte_writeBytes]
  · rw [perform_loadProgram, loadProgram_too_large h]
    rfl

/-- Settles O54: under the invariant the kernel region holds at least the 400 bytes before the handler. -/
theorem loadHandlerCopiesTheImage : Obligations.LoadHandlerCopiesTheImage := by
  unfold Obligations.LoadHandlerCopiesTheImage
  intro s bytes hs entry
  obtain ⟨-, -, -, hkernel, -⟩ := (layout_wf_iff s.layout).1 hs.layout_wf
  refine ⟨fun h => ⟨loadHandler s bytes, rfl, ?_⟩, fun h => ?_⟩
  · rw [loadHandler_fits (by simp only [Config.handlerOffset]; omega)]
    exact ⟨fun a => Memory.readByte_writeBytes bytes s.mem entry a, rfl, fun _ => rfl, rfl, ⟨rfl, rfl, rfl, rfl⟩, rfl,
      rfl⟩
  · rw [perform_loadHandler, loadHandler_too_large (by simp only [Config.handlerOffset]; omega)]
    rfl

/-- Recording an accessor's reports changes the model's own two fields alone (10_state R23). -/
theorem recordReports_frame (s : State) (rs : List Report) :
    { recordReports s rs with reports := s.reports, faulted := s.faulted } = s := rfl

/-- Settles O56: an accessor's next state only records the reports that it returns. -/
theorem accessorsChangeNothing : Obligations.AccessorsChangeNothing := by
  unfold Obligations.AccessorsChangeNothing
  refine ⟨fun s o ho => ?_, fun s => ⟨fun i => ?_, fun i hi => ?_, fun a => ?_, rfl, rfl, rfl, fun w => rfl⟩⟩
  · have hrecords : perform o s = .next (recordReports s (respond o s).2) := by
      rcases ho with ⟨i, rfl⟩ | ⟨a, rfl⟩ | ho
      · rfl
      · rfl
      · simp only [List.mem_cons, List.not_mem_nil, or_false] at ho
        rcases ho with rfl | rfl | rfl <;> rfl
    exact ⟨_, hrecords, recordReports_frame s _, rfl, (recordReports_reports s _).faulted_iff⟩
  · rw [respond_readRegister, readRegister_toNat]
  · rw [respond_readRegister, readRegister, if_neg (Nat.not_lt.2 hi)]
  · rfl

end Sys2Proof.Proofs
end

section
/-!
Delivery of an interrupt and the return from it (60_exceptions R130 to R135), and boot (70_reset R149).
-/
namespace Sys2Proof.Proofs

open Sys2Proof.Machine

/-! ### What a delivery does -/

/-- Under the invariant the sentinel and the default metadata words are in range (60_exceptions R132). -/
theorem deliveryInRange_of_inv {s : State} (hs : s.Inv) : DeliveryInRange s := by
  obtain ⟨-, -, -, hkernel, hsize⟩ := (layout_wf_iff s.layout).1 hs.layout_wf
  have hlpl := hs.lpl_le
  constructor <;> simp only [Layout.kernelBase, Layout.memSize] <;> omega

/-- What R130 says of everything but memory and `laa`: the two registers, the entry point, the flag, and what stays. -/
def Entered (s t : State) : Prop :=
  (∀ i, t.slot i = if i = 30 then s.pc else if i = 29 then BitVec.ofNat 32 (s.lpl + 4) else s.slot i) ∧
  t.pc.toNat = s.layout.progSize + s.layout.vidSize + 400 ∧ t.iis = true ∧ t.halted = s.halted ∧ t.lpl = s.lpl ∧
  t.layout = s.layout ∧ t.reports = [] ∧ t.faulted = s.faulted

/-- A word store changes nothing that `Entered` speaks of. -/
theorem Entered.store {s t : State} (h : Entered s t) (m : Memory) (a : Word) :
    Entered s { t with mem := m, laa := a } := h

theorem entered_enterHandler {s : State} (hs : s.Inv) : Entered s (enterHandler (beginOperation s)) := by
  have hrange := deliveryInRange_of_inv hs
  have hentry : s.layout.progSize + s.layout.vidSize + 400 ≤ 2 ^ 31 := by
    obtain ⟨-, -, -, hkernel, hsize⟩ := (layout_wf_iff s.layout).1 hs.layout_wf
    omega
  rw [enterHandler_eq (s := beginOperation s) ⟨hrange.kernel, hrange.program, hrange.size⟩]
  refine ⟨fun i => ?_, toNat_ofNat_of_le hentry, rfl, rfl, rfl, rfl, rfl, rfl⟩
  show (writeReg (writeReg (beginOperation s) 30#5 s.pc) 29#5 (BitVec.ofNat 32 (s.lpl + 4))).slot i = _
  rw [slot_writeReg, slot_writeReg]
  by_cases h29 : i = 29
  · subst h29
    rfl
  · rw [if_neg h29]
    exact if_neg h29

/-- Memory after a word store, as `overlayWord` of the bytes before (20_memory R33). -/
theorem readByte_writeWord_eq_overlayWord (m : Memory) (a : Nat) (v : Word) :
    (m.writeBytes a (wordBytes v)).readByte = overlayWord a v m.readByte :=
  funext fun b => Memory.readByte_writeWord m a b v

/-- Memory once the handler is entered: the sentinel at `lpl` (60_exceptions R130). -/
theorem readByte_enterHandler {s : State} (hs : s.Inv) :
    (enterHandler (beginOperation s)).mem.readByte =
      overlayWord s.lpl (BitVec.ofNat 32 (s.layout.progSize + s.layout.vidSize)) s.mem.readByte := by
  have hrange := deliveryInRange_of_inv hs
  rw [enterHandler_eq (s := beginOperation s) ⟨hrange.kernel, hrange.program, hrange.size⟩]
  exact readByte_writeWord_eq_overlayWord s.mem s.lpl _

/-- A request with none in service is delivered (60_exceptions R130, R131). -/
theorem raiseInterruptWith_of_not_iis (p : Params) {s : State} (h : s.iis = false) (ty : IrqType) (key : Word) :
    raiseInterruptWith p s ty key = writeIrqMetadata p (enterHandler (beginOperation s)) ty key :=
  if_neg (by simp [h])

/-- Settles O59: after the sentinel each metadata write is one more overlay, and no write changes what R130 sets. -/
theorem metadataAddressesAreParameters : Obligations.MetadataAddressesAreParameters := by
  unfold Obligations.MetadataAddressesAreParameters
  intro p s key hs hiis htype hkey kb sentinel entered
  have hentered := entered_enterHandler hs
  have hmem := readByte_enterHandler hs
  have hsize := (deliveryInRange_of_inv hs).size
  have hlayout : (enterHandler (beginOperation s)).layout = s.layout := by simp [enterHandler]
  have hmeta : MetadataInRange p (enterHandler (beginOperation s)) := by
    constructor <;> rw [hlayout] <;> assumption
  refine ⟨⟨_, rfl, ?_⟩, ⟨_, rfl, ?_⟩⟩
  · rw [raiseInterruptWith_of_not_iis p hiis, writeIrqMetadata_keyDown hmeta]
    refine ⟨hentered.store _ _, fun b => ?_, ?_⟩ <;> rw [hlayout]
    · rw [readByte_writeWord_eq_overlayWord, readByte_writeWord_eq_overlayWord, hmem]
    · exact toNat_ofNat_of_le (by omega)
  · rw [raiseInterruptWith_of_not_iis p hiis, writeIrqMetadata_keyUp hmeta]
    refine ⟨hentered.store _ _, fun b => ?_, ?_⟩ <;> rw [hlayout]
    · rw [readByte_writeWord_eq_overlayWord, hmem]
    · exact toNat_ofNat_of_le (by omega)

/-- Settles O50: O59 at the default addresses, which are in range. -/
theorem interruptRecordsTheEvent : Obligations.InterruptRecordsTheEvent := by
  unfold Obligations.InterruptRecordsTheEvent
  intro s key hs hiis kb sentinel
  have hmeta := (deliveryInRange_of_inv hs).metadata
  obtain ⟨⟨t, ht, hdown, htmem, htlaa⟩, ⟨u, hu, hup, humem, hulaa⟩⟩ :=
    metadataAddressesAreParameters defaultParams s key hs hiis hmeta.type hmeta.key
  obtain ⟨-, -, -, -, -, -, htreports, htfaulted⟩ := hdown
  obtain ⟨-, -, -, -, -, -, hureports, hufaulted⟩ := hup
  exact ⟨⟨t, ht, htmem, htlaa, htreports, htfaulted⟩, ⟨u, hu, humem, hulaa, hureports, hufaulted⟩⟩

/-- A delivery of either type: the registers and flags of R130, and the sentinel, which the metadata words, at KB + 52
and above, do not touch. -/
theorem raiseInterrupt_delivered {s : State} (hs : s.Inv) (hiis : s.iis = false) (ty : IrqType) (key : Word) :
    Entered s (raiseInterrupt s ty key) ∧
    ∀ b, b < s.layout.progSize + s.layout.vidSize + 52 → (raiseInterrupt s ty key).mem.readByte b =
      overlayWord s.lpl (BitVec.ofNat 32 (s.layout.progSize + s.layout.vidSize)) s.mem.readByte b := by
  have hmeta := (deliveryInRange_of_inv hs).metadata
  obtain ⟨⟨t, ht, hdown, htmem, -⟩, ⟨u, hu, hup, humem, -⟩⟩ :=
    metadataAddressesAreParameters defaultParams s key hs hiis hmeta.type hmeta.key
  have htype : defaultParams.irqTypeAddr s.layout = s.layout.progSize + s.layout.vidSize + 52 := rfl
  have hkey : defaultParams.irqKeyAddr s.layout = s.layout.progSize + s.layout.vidSize + 56 := rfl
  cases ty with
  | keyDown =>
    obtain rfl := Host.Outcome.next.inj ht
    refine ⟨hdown, fun b hb => (htmem b).trans ?_⟩
    rw [overlayWord_of_ne (by omega), overlayWord_of_ne (by omega)]
  | keyUp =>
    obtain rfl := Host.Outcome.next.inj hu
    refine ⟨hup, fun b hb => (humem b).trans ?_⟩
    rw [overlayWord_of_ne (by omega)]

/-- Settles O49: the delivered state's registers are those of R130, and the sentinel's bytes lie below the metadata. -/
theorem interruptSavesAndEnters : Obligations.InterruptSavesAndEnters := by
  unfold Obligations.InterruptSavesAndEnters
  intro s ty key hs hiis
  have hlpl := hs.lpl_le
  obtain ⟨⟨hslots, hpc, htiis, hhalted, htlpl, hlayout, -, -⟩, hmem⟩ := raiseInterrupt_delivered hs hiis ty key
  refine ⟨raiseInterrupt s ty key, rfl, htiis, hslots 30, hpc, ?_, fun k hk => ?_, fun i h29 h30 => ?_, hhalted,
    htlpl, hlayout⟩
  · exact (hslots 29).trans (BitVec.ofInt_natCast 32 (s.lpl + 4)).symm
  · rw [hmem _ (by omega), overlayWord_self _ _ _ hk, ← BitVec.ofInt_natCast]
    rfl
  · rw [hslots, if_neg h30, if_neg h29]

/-! ### Returning -/

/-- A step answers wherever `pc` is a multiple of 4 (40_step_halt R68). -/
theorem step_answers {s : State} (h : s.pc.toNat % 4 = 0) : ∃ t, step s = .next t := by
  rcases step_cases s with ⟨-, hs⟩ | ⟨-, hmis, -⟩ | ⟨-, -, -, t, -, -, hs, -⟩ | ⟨-, -, -, hs⟩
  · exact ⟨_, hs⟩
  · exact absurd h hmis
  · exact ⟨t, hs⟩
  · exact ⟨_, hs⟩

/-- Settles O51: a jump writes no flag, its target is a multiple of 4, and so the next step answers and clears the flag
below `P`. -/
theorem returnClearsInServiceAtTheNextStep : Obligations.ReturnClearsInServiceAtTheNextStep := by
  unfold Obligations.ReturnClearsInServiceAtTheNextStep
  intro s t rc hiis hrun hexec
  have ht : ({ writeLink s rc with pc := jumpTarget (writeLink s rc) 30 } : State) = t := Host.Outcome.next.inj hexec
  have htiis : t.iis = true := by rw [← ht]; exact hiis
  have htrun : t.halted = false := by rw [← ht]; exact hrun
  have haligned : t.pc.toNat % 4 = 0 := by
    have htarget := toNat_jumpTarget (writeLink s rc) 30
    rw [← ht]
    show (jumpTarget (writeLink s rc) 30).toNat % 4 = 0
    omega
  refine ⟨htiis, raiseInterrupt_of_iis htiis, fun hbelow => ?_⟩
  obtain ⟨u, hu⟩ := step_answers haligned
  exact ⟨u, hu, (step_iis htrun hu).trans (if_pos hbelow)⟩

/-- Settles O52: register 30 holds the interrupted `pc`, a multiple of 4, and the link goes to slot 31, which is not
read. -/
theorem interruptThenReturnResumes : Obligations.InterruptThenReturnResumes := by
  unfold Obligations.InterruptThenReturnResumes
  intro s u ty key hs hiis hexec
  obtain rfl := Host.Outcome.next.inj hexec
  obtain ⟨⟨hslots, -⟩, -⟩ := raiseInterrupt_delivered hs hiis ty key
  refine ⟨?_, fun i h29 h30 h31 => ?_⟩
  · apply BitVec.eq_of_toNat_eq
    have hread : readReg (writeLink (raiseInterrupt s ty key) 31) 30 = s.pc := by
      rw [readReg_writeLink]
      exact hslots 30
    have hpc := hs.pc_aligned
    show (jumpTarget (writeLink (raiseInterrupt s ty key) 31) 30).toNat = s.pc.toNat
    rw [toNat_jumpTarget, hread]
    omega
  · show (writeLink (raiseInterrupt s ty key) 31).slot i = s.slot i
    rw [writeLink, slot_writeReg, if_neg h31, hslots, if_neg h30, if_neg h29]

/-! ### Boot -/

/-- Byte `k` of a word's four bytes with anything after them. -/
theorem getD_wordBytes_append (w : Word) (rest : List Byte) {k : Nat} (hk : k < 4) :
    (wordBytes w ++ rest).getD k 0 = w.extractLsb' (8 * k) 8 := by
  have hcases : k = 0 ∨ k = 1 ∨ k = 2 ∨ k = 3 := by omega
  rcases hcases with rfl | rfl | rfl | rfl <;> rfl

/-- An image of an instruction's bytes and some more is four bytes longer than these. -/
theorem length_encodeBytes_append (i : Instr) (rest : List Byte) :
    (encodeBytes i ++ rest).length = rest.length + 4 := by
  simp [encodeBytes, wordBytes]

/-- The first word of a loaded image is the instruction's (20_memory R41). -/
theorem wordAt_loadProgram {s : State} {i : Instr} {rest : List Byte} (h : rest.length + 4 ≤ s.layout.progSize) :
    wordAt (loadProgram s (encodeBytes i ++ rest)) 0 = encode i := by
  have hlength := length_encodeBytes_append i rest
  refine readsAs_unique (readsAs_wordAt _ 0) fun k hk => ?_
  rw [loadProgram_fits (by omega), if_pos (by simp only [beginOperation_layout, Layout.memSize]; omega),
    Memory.readByte_writeBytes, if_pos (by omega)]
  rw [Nat.zero_add, Nat.sub_zero]
  exact (getD_wordBytes_append (encode i) rest hk).symm

/-- Settles O55: reset leaves `pc` at 0, the flags clear and no report, so the step's beginning changes nothing. -/
theorem bootRunsTheFirstInstruction : Obligations.BootRunsTheFirstInstruction := by
  unfold Obligations.BootRunsTheFirstInstruction
  intro l i rest hwf hlength
  have hfits : (encodeBytes i ++ rest).length ≤ l.progSize := by rwa [length_encodeBytes_append]
  have hword := wordAt_loadProgram (s := State.resetWith l) (i := i) (rest := rest) hlength
  rw [loadProgram_fits hfits] at hword ⊢
  refine (step_in_range (i := i) rfl rfl ?_ ?_).trans ?_
  · show 0 < l.memSize
    simp only [Layout.memSize]
    omega
  · exact (congrArg decodeWord hword).trans (decodeWord_encode i)
  · simp [iisAfterBegin, beginOperation, State.resetWith]

end Sys2Proof.Proofs
end
